-- ==== Sys2Proof/Word.lean ====
section
/-! DEFINITION. The widths of the machine's values (00_scope.md R6, R9): every value is unsigned. -/

namespace Sys2Proof

/-- One memory cell, one V register, DT, ST (10_state.md R21, R27 to R29). -/
abbrev Byte := BitVec 8

/-- I, PC, a stack slot, an instruction word (10_state.md R23, R24, R26; 30_encoding.md R70). -/
abbrev Word := BitVec 16

/-- The 12-bit address field nnn (30_encoding.md R71). -/
abbrev Addr12 := BitVec 12

/-- A register selector x or y: one of V0..VF (30_encoding.md R71, R72). -/
abbrev Reg := Fin 16

/-- VF, index 15: the flag output of the ALU, shift and draw instructions (10_state.md R22). -/
abbrev VF : Reg := 15

end Sys2Proof
end

