-- ==== Sys2Proof/Config.lean ====
section
/-! DEFINITION. What an implementation fixes: the six parameters of 00_scope.md R7, and the
free random byte of 00_scope.md R12. -/

namespace Sys2Proof

/-- P_FONT: 16 glyphs of 5 bytes, glyph g at bytes 5g..5g+4 (44_display.md R187). -/
abbrev Font := Vector (Vector Byte 5) 16

/-- P_SHIFT_SRC: the register SHR and SHL shift (42_alu.md R140, R142). -/
inductive ShiftSrc where
  | vx
  | vy
  deriving DecidableEq, Repr

/-- P_KEYWAIT_PICK: the key Fx0A takes when several are down (45_keypad_and_timers.md R203). -/
inductive KeyPick where
  | highest
  | lowest
  deriving DecidableEq, Repr

/-- P_ODD_PC: what a fetch at an odd PC does (20_memory.md R56). -/
inductive OddPc where
  | execute
  | fault
  deriving DecidableEq, Repr

/-- The parameters of 00_scope.md R7, which a model takes as arguments. -/
structure Config where
  /-- P_FONT -/
  font : Font
  /-- P_STRICT_DECODE (30_encoding.md R74, R75) -/
  strictDecode : Bool
  /-- P_SHIFT_SRC -/
  shiftSrc : ShiftSrc
  /-- P_SUB_EQ_FLAG: whether SUB and SUBN set VF to 1 on equal operands (42_alu.md R139, R141) -/
  subEqFlag : Bool
  /-- P_KEYWAIT_PICK -/
  keyWaitPick : KeyPick
  /-- P_ODD_PC -/
  oddPc : OddPc
  deriving DecidableEq, Repr

/-- The free random byte of RND's k-th draw (00_scope.md R12, 10_state.md R35): nothing constrains it. Safe for
claims about one run (log entry 2). -/
opaque Config.drawByte : Nat → Byte

end Sys2Proof
end

