-- ==== Sys2Proof/Machine/Params.lean ====
section
/-! DEFINITION. The default parameters of 00_scope.md R7. -/

namespace Sys2Proof

/-- The default P_FONT, the table of 44_display.md R187. UNVERIFIED, unsafe for claims that read font bytes
(log entry 8): the spec marks it general knowledge and not its source's. -/
def Config.defaultFont : Font :=
  #v[#v[0xF0, 0x90, 0x90, 0x90, 0xF0], #v[0x20, 0x60, 0x20, 0x20, 0x70],
     #v[0xF0, 0x10, 0xF0, 0x80, 0xF0], #v[0xF0, 0x10, 0xF0, 0x10, 0xF0],
     #v[0x90, 0x90, 0xF0, 0x10, 0x10], #v[0xF0, 0x80, 0xF0, 0x10, 0xF0],
     #v[0xF0, 0x80, 0xF0, 0x90, 0xF0], #v[0xF0, 0x10, 0x20, 0x40, 0x40],
     #v[0xF0, 0x90, 0xF0, 0x90, 0xF0], #v[0xF0, 0x90, 0xF0, 0x10, 0xF0],
     #v[0xF0, 0x90, 0xF0, 0x90, 0x90], #v[0xE0, 0x90, 0xE0, 0x90, 0xE0],
     #v[0xF0, 0x80, 0x80, 0x80, 0xF0], #v[0xE0, 0x90, 0x90, 0x90, 0xE0],
     #v[0xF0, 0x80, 0xF0, 0x80, 0xF0], #v[0xF0, 0x80, 0xF0, 0x80, 0x80]]

/-- The defaults of 00_scope.md R7. UNVERIFIED of the reference, unsafe for claims about the reset state alone
(log entry 8). -/
def Config.default : Config where
  font := Config.defaultFont
  strictDecode := true
  shiftSrc := .vx
  subEqFlag := true
  keyWaitPick := .highest
  oddPc := .execute

end Sys2Proof
end

