-- ==== Sys2Proof/Syntax.lean ====
section
/-! DEFINITION. The instructions: one constructor per row of spec/opcode_table.json, in the order of
30_encoding.md R73. Operands are the fields of 30_encoding.md R71: `x`, `y` select a V register, `kk` is an
8-bit immediate, `nnn` a 12-bit address, `n` a count 0..15. -/

namespace Sys2Proof

inductive Instr where
  /-- 00E0 CLS (44_display.md R184) -/
  | cls
  /-- 00EE RET (40_cycle_and_control.md R105) -/
  | ret
  /-- 1nnn JP nnn (40_cycle_and_control.md R106) -/
  | jp (nnn : Addr12)
  /-- 2nnn CALL nnn (40_cycle_and_control.md R107) -/
  | call (nnn : Addr12)
  /-- 3xkk SE Vx, kk (41_skips.md R121) -/
  | seImm (x : Reg) (kk : Byte)
  /-- 4xkk SNE Vx, kk (41_skips.md R122) -/
  | sneImm (x : Reg) (kk : Byte)
  /-- 5xy0 SE Vx, Vy (41_skips.md R123) -/
  | seReg (x y : Reg)
  /-- 6xkk LD Vx, kk (42_alu.md R132) -/
  | ldImm (x : Reg) (kk : Byte)
  /-- 7xkk ADD Vx, kk (42_alu.md R133) -/
  | addImm (x : Reg) (kk : Byte)
  /-- 8xy0 LD Vx, Vy (42_alu.md R134) -/
  | ldReg (x y : Reg)
  /-- 8xy1 OR Vx, Vy (42_alu.md R135) -/
  | orReg (x y : Reg)
  /-- 8xy2 AND Vx, Vy (42_alu.md R136) -/
  | andReg (x y : Reg)
  /-- 8xy3 XOR Vx, Vy (42_alu.md R137) -/
  | xorReg (x y : Reg)
  /-- 8xy4 ADD Vx, Vy (42_alu.md R138) -/
  | addReg (x y : Reg)
  /-- 8xy5 SUB Vx, Vy (42_alu.md R139) -/
  | subReg (x y : Reg)
  /-- 8xy6 SHR Vx, Vy (42_alu.md R140) -/
  | shrReg (x y : Reg)
  /-- 8xy7 SUBN Vx, Vy (42_alu.md R141) -/
  | subnReg (x y : Reg)
  /-- 8xyE SHL Vx, Vy (42_alu.md R142) -/
  | shlReg (x y : Reg)
  /-- 9xy0 SNE Vx, Vy (41_skips.md R124) -/
  | sneReg (x y : Reg)
  /-- Annn LD I, nnn (43_index_and_memory.md R160) -/
  | ldI (nnn : Addr12)
  /-- Bnnn JP V0, nnn (40_cycle_and_control.md R108) -/
  | jpV0 (nnn : Addr12)
  /-- Cxkk RND Vx, kk (42_alu.md R143) -/
  | rnd (x : Reg) (kk : Byte)
  /-- Dxyn DRW Vx, Vy, n (44_display.md R185) -/
  | drw (x y : Reg) (n : Fin 16)
  /-- Ex9E SKP Vx (45_keypad_and_timers.md R201) -/
  | skp (x : Reg)
  /-- ExA1 SKNP Vx (45_keypad_and_timers.md R202) -/
  | sknp (x : Reg)
  /-- Fx07 LD Vx, DT (45_keypad_and_timers.md R204) -/
  | ldVxDt (x : Reg)
  /-- Fx0A LD Vx, K (45_keypad_and_timers.md R203) -/
  | ldVxKey (x : Reg)
  /-- Fx15 LD DT, Vx (45_keypad_and_timers.md R205) -/
  | ldDtVx (x : Reg)
  /-- Fx18 LD ST, Vx (45_keypad_and_timers.md R206) -/
  | ldStVx (x : Reg)
  /-- Fx1E ADD I, Vx (43_index_and_memory.md R161) -/
  | addI (x : Reg)
  /-- Fx29 LD F, Vx (43_index_and_memory.md R162) -/
  | ldFont (x : Reg)
  /-- Fx33 LD B, Vx (43_index_and_memory.md R163) -/
  | ldBcd (x : Reg)
  /-- Fx55 LD [I], Vx (43_index_and_memory.md R164) -/
  | storeRegs (x : Reg)
  /-- Fx65 LD Vx, [I] (43_index_and_memory.md R165) -/
  | loadRegs (x : Reg)
  deriving DecidableEq, Repr

end Sys2Proof
end

