-- ==== Sys2Proof/Decode.lean ====
section
/-! DEFINITION. Decoding (30_encoding.md R70 to R78): total on any bytes, answering an instruction or a reason
by name; the encoder written from the same table; and the opcode table of 30_encoding.md R73 as masks and
patterns. -/

namespace Sys2Proof

/-- Why bytes give no instruction. -/
inductive Reject where
  /-- The word matches no row of the opcode map. It is not illegal: the cycle executes it as a no-op
  (30_encoding.md R76, R77). -/
  | unassigned (w : Word)
  /-- Fewer than two bytes: no word can be formed (30_encoding.md R70). -/
  | truncated
  deriving DecidableEq, Repr

/-- op = w[15:12] (30_encoding.md R71) -/
def opField (w : Word) : Nat := (w.extractLsb' 12 4).toNat

/-- x = w[11:8] -/
def xField (w : Word) : Reg := (w.extractLsb' 8 4).toFin

/-- y = w[7:4] -/
def yField (w : Word) : Reg := (w.extractLsb' 4 4).toFin

/-- n = w[3:0] -/
def nField (w : Word) : Fin 16 := (w.extractLsb' 0 4).toFin

/-- kk = w[7:0] -/
def kkField (w : Word) : Byte := w.extractLsb' 0 8

/-- nnn = w[11:0] -/
def nnnField (w : Word) : Addr12 := w.extractLsb' 0 12

/-- Family 0x0: 00E0 and 00EE exactly when decoding is strict (30_encoding.md R74), any x when loose (R75). -/
def decodeFamily0 (strict : Bool) (w : Word) : Except Reject Instr :=
  if strict && xField w != 0 then .error (.unassigned w)
  else match (kkField w).toNat with
    | 0xE0 => .ok .cls
    | 0xEE => .ok .ret
    | _ => .error (.unassigned w)

/-- Families 0x5 and 0x9: n = 0 when decoding is strict (30_encoding.md R74), any n when loose (R75). -/
def decodeFixedN (strict : Bool) (w : Word) (i : Instr) : Except Reject Instr :=
  if strict && nField w != 0 then .error (.unassigned w) else .ok i

/-- Family 0x8, by the low nibble (30_encoding.md R73, R81). -/
def decodeFamily8 (w : Word) : Except Reject Instr :=
  let x := xField w
  let y := yField w
  match (nField w).val with
  | 0x0 => .ok (.ldReg x y)
  | 0x1 => .ok (.orReg x y)
  | 0x2 => .ok (.andReg x y)
  | 0x3 => .ok (.xorReg x y)
  | 0x4 => .ok (.addReg x y)
  | 0x5 => .ok (.subReg x y)
  | 0x6 => .ok (.shrReg x y)
  | 0x7 => .ok (.subnReg x y)
  | 0xE => .ok (.shlReg x y)
  | _ => .error (.unassigned w)

/-- Family 0xE, by the low byte (30_encoding.md R73). -/
def decodeFamilyE (w : Word) : Except Reject Instr :=
  match (kkField w).toNat with
  | 0x9E => .ok (.skp (xField w))
  | 0xA1 => .ok (.sknp (xField w))
  | _ => .error (.unassigned w)

/-- Family 0xF, by the low byte (30_encoding.md R73). -/
def decodeFamilyF (w : Word) : Except Reject Instr :=
  let x := xField w
  match (kkField w).toNat with
  | 0x07 => .ok (.ldVxDt x)
  | 0x0A => .ok (.ldVxKey x)
  | 0x15 => .ok (.ldDtVx x)
  | 0x18 => .ok (.ldStVx x)
  | 0x1E => .ok (.addI x)
  | 0x29 => .ok (.ldFont x)
  | 0x33 => .ok (.ldBcd x)
  | 0x55 => .ok (.storeRegs x)
  | 0x65 => .ok (.loadRegs x)
  | _ => .error (.unassigned w)

/-- `dispatch(w)` of 40_cycle_and_control.md R100: the row of 30_encoding.md R73 that the word selects, under
P_STRICT_DECODE = `strict` (R74, R75). -/
def decodeWord (strict : Bool) (w : Word) : Except Reject Instr :=
  match opField w with
  | 0x0 => decodeFamily0 strict w
  | 0x1 => .ok (.jp (nnnField w))
  | 0x2 => .ok (.call (nnnField w))
  | 0x3 => .ok (.seImm (xField w) (kkField w))
  | 0x4 => .ok (.sneImm (xField w) (kkField w))
  | 0x5 => decodeFixedN strict w (.seReg (xField w) (yField w))
  | 0x6 => .ok (.ldImm (xField w) (kkField w))
  | 0x7 => .ok (.addImm (xField w) (kkField w))
  | 0x8 => decodeFamily8 w
  | 0x9 => decodeFixedN strict w (.sneReg (xField w) (yField w))
  | 0xA => .ok (.ldI (nnnField w))
  | 0xB => .ok (.jpV0 (nnnField w))
  | 0xC => .ok (.rnd (xField w) (kkField w))
  | 0xD => .ok (.drw (xField w) (yField w) (nField w))
  | 0xE => decodeFamilyE w
  | 0xF => decodeFamilyF w
  | _ => .error (.unassigned w)

/-- The word two bytes form, the first the more significant (20_memory.md R53). -/
def wordOfBytes (hi lo : Byte) : Word := hi ++ lo

/-- The byte of a word at the lower address (20_memory.md R53, R54). -/
def highByte (w : Word) : Byte := w.extractLsb' 8 8

/-- The byte of a word at the higher address. -/
def lowByte (w : Word) : Byte := w.extractLsb' 0 8

/-- Decode the first instruction of a byte sequence and give the bytes after it. -/
def decode (strict : Bool) : List Byte → Except Reject (Instr × List Byte)
  | hi :: lo :: rest =>
    match decodeWord strict (wordOfBytes hi lo) with
    | .ok i => .ok (i, rest)
    | .error e => .error e
  | _ => .error .truncated

/-! ## The encoder -/

/-- The format op, x, y, n (30_encoding.md R71). -/
def wordXYN (op : BitVec 4) (x y n : Fin 16) : Word :=
  op ++ (BitVec.ofFin x : BitVec 4) ++ (BitVec.ofFin y : BitVec 4) ++ (BitVec.ofFin n : BitVec 4)

/-- The format op, x, kk. -/
def wordXKK (op : BitVec 4) (x : Reg) (kk : Byte) : Word := op ++ (BitVec.ofFin x : BitVec 4) ++ kk

/-- The format op, nnn. -/
def wordNNN (op : BitVec 4) (nnn : Addr12) : Word := op ++ nnn

/-- The word of an instruction (30_encoding.md R73, R81). -/
def encode : Instr → Word
  | .cls => 0x00E0
  | .ret => 0x00EE
  | .jp nnn => wordNNN 0x1 nnn
  | .call nnn => wordNNN 0x2 nnn
  | .seImm x kk => wordXKK 0x3 x kk
  | .sneImm x kk => wordXKK 0x4 x kk
  | .seReg x y => wordXYN 0x5 x y 0x0
  | .ldImm x kk => wordXKK 0x6 x kk
  | .addImm x kk => wordXKK 0x7 x kk
  | .ldReg x y => wordXYN 0x8 x y 0x0
  | .orReg x y => wordXYN 0x8 x y 0x1
  | .andReg x y => wordXYN 0x8 x y 0x2
  | .xorReg x y => wordXYN 0x8 x y 0x3
  | .addReg x y => wordXYN 0x8 x y 0x4
  | .subReg x y => wordXYN 0x8 x y 0x5
  | .shrReg x y => wordXYN 0x8 x y 0x6
  | .subnReg x y => wordXYN 0x8 x y 0x7
  | .shlReg x y => wordXYN 0x8 x y 0xE
  | .sneReg x y => wordXYN 0x9 x y 0x0
  | .ldI nnn => wordNNN 0xA nnn
  | .jpV0 nnn => wordNNN 0xB nnn
  | .rnd x kk => wordXKK 0xC x kk
  | .drw x y n => wordXYN 0xD x y n
  | .skp x => wordXKK 0xE x 0x9E
  | .sknp x => wordXKK 0xE x 0xA1
  | .ldVxDt x => wordXKK 0xF x 0x07
  | .ldVxKey x => wordXKK 0xF x 0x0A
  | .ldDtVx x => wordXKK 0xF x 0x15
  | .ldStVx x => wordXKK 0xF x 0x18
  | .addI x => wordXKK 0xF x 0x1E
  | .ldFont x => wordXKK 0xF x 0x29
  | .ldBcd x => wordXKK 0xF x 0x33
  | .storeRegs x => wordXKK 0xF x 0x55
  | .loadRegs x => wordXKK 0xF x 0x65

/-- The bytes of an instruction as they stand in memory, high byte first. -/
def encodeBytes (i : Instr) : List Byte := [highByte (encode i), lowByte (encode i)]

/-! ## The opcode table -/

/-- A row's mask and pattern (30_encoding.md R73; "mask" and "match" of spec/opcode_table.json). -/
structure OpcodeRow where
  mask : Word
  pattern : Word
  deriving DecidableEq, Repr

/-- `w & mask == pattern & mask` (30_encoding.md R73). -/
def OpcodeRow.selects (r : OpcodeRow) (w : Word) : Bool := w &&& r.mask == r.pattern &&& r.mask

/-- The row of an instruction in the strict table (30_encoding.md R73, R74). -/
def Instr.row : Instr → OpcodeRow
  | .cls => ⟨0xFFFF, 0x00E0⟩
  | .ret => ⟨0xFFFF, 0x00EE⟩
  | .jp _ => ⟨0xF000, 0x1000⟩
  | .call _ => ⟨0xF000, 0x2000⟩
  | .seImm _ _ => ⟨0xF000, 0x3000⟩
  | .sneImm _ _ => ⟨0xF000, 0x4000⟩
  | .seReg _ _ => ⟨0xF00F, 0x5000⟩
  | .ldImm _ _ => ⟨0xF000, 0x6000⟩
  | .addImm _ _ => ⟨0xF000, 0x7000⟩
  | .ldReg _ _ => ⟨0xF00F, 0x8000⟩
  | .orReg _ _ => ⟨0xF00F, 0x8001⟩
  | .andReg _ _ => ⟨0xF00F, 0x8002⟩
  | .xorReg _ _ => ⟨0xF00F, 0x8003⟩
  | .addReg _ _ => ⟨0xF00F, 0x8004⟩
  | .subReg _ _ => ⟨0xF00F, 0x8005⟩
  | .shrReg _ _ => ⟨0xF00F, 0x8006⟩
  | .subnReg _ _ => ⟨0xF00F, 0x8007⟩
  | .shlReg _ _ => ⟨0xF00F, 0x800E⟩
  | .sneReg _ _ => ⟨0xF00F, 0x9000⟩
  | .ldI _ => ⟨0xF000, 0xA000⟩
  | .jpV0 _ => ⟨0xF000, 0xB000⟩
  | .rnd _ _ => ⟨0xF000, 0xC000⟩
  | .drw _ _ _ => ⟨0xF000, 0xD000⟩
  | .skp _ => ⟨0xF0FF, 0xE09E⟩
  | .sknp _ => ⟨0xF0FF, 0xE0A1⟩
  | .ldVxDt _ => ⟨0xF0FF, 0xF007⟩
  | .ldVxKey _ => ⟨0xF0FF, 0xF00A⟩
  | .ldDtVx _ => ⟨0xF0FF, 0xF015⟩
  | .ldStVx _ => ⟨0xF0FF, 0xF018⟩
  | .addI _ => ⟨0xF0FF, 0xF01E⟩
  | .ldFont _ => ⟨0xF0FF, 0xF029⟩
  | .ldBcd _ => ⟨0xF0FF, 0xF033⟩
  | .storeRegs _ => ⟨0xF0FF, 0xF055⟩
  | .loadRegs _ => ⟨0xF0FF, 0xF065⟩

/-- The instruction word whose low `nbits` bits are those of `w`, the others 0. -/
def wordOfBits (nbits w : Nat) : Word := BitVec.ofNat 16 (w % 2 ^ nbits)

/-- The instruction the decoder reads, under the default parameters, from the first `nbits` bits `w` of an
instruction laid out as the hardware stores it (20_memory.md R53). -/
def decodeTableWord (nbits w : Nat) : Option Instr :=
  let word := wordOfBits nbits w
  match decode Config.default.strictDecode [highByte word, lowByte word] with
  | .ok (i, _) => some i
  | .error _ => none

end Sys2Proof
end

