-- ==== Sys2Proof/Machine/State.lean ====
section
/-! DEFINITION. The state of the machine (10_state.md R20 to R37), its fault records (60_exceptions.md R221) and
the state after reset (70_reset_and_hazards.md R260). -/

namespace Sys2Proof.Machine

/-- The fault causes of 60_exceptions.md R221, each with the info its row records; `pc0` is the address of the
cycle's instruction and `w` its word. Raising one puts it into `State.status` (R220, R222): the step answers a
next state, so that the spec's record of a fault is part of the state. No step ends in `Outcome.fault`. -/
inductive Fault where
  /-- Code 1, raised by every cycle with pc0 > 0xFFE. The spec's own fault: safe. -/
  | fetchOutOfBounds (pc0 : Word)
  /-- Code 2, raised by Dxyn, Fx33, Fx55, Fx65 with the lowest address above 0xFFF. The spec's own fault
  (decision D5): safe. -/
  | memOutOfBounds (addr : Nat) (pc0 w : Word)
  /-- Code 3, raised by 2nnn at SP = 16. The spec's own fault (decision D4): safe. -/
  | stackOverflow (pc0 w : Word)
  /-- Code 4, raised by 00EE at SP = 0. The spec's own fault (decision D4): safe. -/
  | stackUnderflow (pc0 w : Word)
  /-- Code 5, raised by Ex9E and ExA1 with Vx > 15. The spec's own fault (decision D13): safe. -/
  | keyOutOfRange (vx : Byte) (pc0 w : Word)
  /-- Code 6, raised by Fx1E when I + Vx > 0xFFFF. The spec's own fault (decision D3): safe. -/
  | iOverflow (i : Word) (vx : Byte) (pc0 w : Word)
  /-- Code 7, raised by every cycle with an odd pc0 when P_ODD_PC = fault. The spec's own fault: safe. -/
  | misalignedFetch (pc0 : Word)
  deriving DecidableEq, Repr

/-- What the model gives no meaning. -/
inductive Refusal where
  /-- An instruction without a meaning in this model; no arm of `exec` answers it. Safe. -/
  | notModelled (mnemonic : String)
  /-- Raised on a Running core by a host key event with an index above 15, which has no move (60_exceptions.md R233,
  decision D19). Unsafe if a host can send one (log entry 5). -/
  | keyEventOutOfRange (k : Nat)
  deriving DecidableEq, Repr

/-- The run status (10_state.md R32). -/
inductive RunStatus where
  | running
  | faulted (f : Fault)
  deriving DecidableEq, Repr

/-- Memory (10_state.md R29) as the cells that differ from the reset contents, addresses strictly rising. -/
abbrev Memory := List Host.Cell

/-- The framebuffer (10_state.md R30): 32 rows, top first, of 64 pixels, leftmost first; `true` is 1. -/
abbrev Framebuffer := Vector (Vector Bool 64) 32

/-- The machine's state (10_state.md R20). -/
structure State where
  /-- memory, R29 -/
  mem : Memory
  /-- V0..VF, R21; VF = `v[15]`, R22 -/
  v : Vector Byte 16
  /-- I, R23 -/
  i : Word
  /-- PC, R24 -/
  pc : Word
  /-- SP, R25: how many return addresses are on the stack -/
  sp : Fin 17
  /-- the call stack, R26 -/
  stack : Vector Word 16
  /-- DT, R27 -/
  dt : Byte
  /-- ST, R28 -/
  st : Byte
  /-- FB, R30 -/
  fb : Framebuffer
  /-- KEY, R31: `true` is down -/
  keys : Vector Bool 16
  /-- run status, R32 -/
  status : RunStatus
  /-- The MODEL's own field: the parameters of 00_scope.md R7; nothing changes them (log entry 1). -/
  config : Config
  /-- The MODEL's own field: how many random bytes have been drawn, the index of the next free value (log
  entry 2). -/
  draws : Nat
  deriving DecidableEq, Repr

/-- The blank screen (10_state.md R30). -/
def Framebuffer.blank : Framebuffer := Vector.replicate 32 (Vector.replicate 64 false)

/-- The state after reset (70_reset_and_hazards.md R260). The zeros of V, I, SP, stack, DT and ST are the spec's
decision D1 (UNVERIFIED of the reference, unsafe: log entry 8); `draws` is DESIGN CHOICE 0 (log entry 2). -/
def State.reset : State where
  mem := []
  v := Vector.replicate 16 0
  i := 0
  pc := 0x200
  sp := 0
  stack := Vector.replicate 16 0
  dt := 0
  st := 0
  fb := Framebuffer.blank
  keys := Vector.replicate 16 false
  status := .running
  config := Config.default
  draws := 0

end Sys2Proof.Machine
end

