-- ==== Sys2Proof/Machine/Ops.lean ====
section
/-! DEFINITION. The named operations over memory, registers, the stack and PC, and the raising of a fault, which
is this machine's only exception (60_exceptions.md R220, R226: no trap entry, and R227: no return from it). -/

namespace Sys2Proof.Machine

/-! ## Memory -/

/-- What a cell no store has changed holds: the reset contents (20_memory.md R57), the font at 0x000..0x04F,
glyph g at 5g, and 0x00 elsewhere. -/
def resetByte (font : Font) (a : Nat) : Byte :=
  if h : a < 80 then font[a / 5][a % 5] else 0

/-- The byte at an address. Callers check the address first (00_scope.md R11). -/
def Memory.read (font : Font) : Memory → Nat → Byte
  | [], a => resetByte font a
  | c :: rest, a => if c.1 = a then c.2 else Memory.read font rest a

/-- The cells other than that of address `a`. -/
def Memory.erase (m : Memory) (a : Nat) : Memory := m.filter fun c => c.1 != a

/-- Put a cell before the first cell of a higher address. -/
def Memory.insert (a : Nat) (b : Byte) : Memory → Memory
  | [] => [(a, b)]
  | c :: rest => if a < c.1 then (a, b) :: c :: rest else c :: Memory.insert a b rest

/-- Store a byte. A cell that again holds its reset contents is not listed. -/
def Memory.write (font : Font) (m : Memory) (a : Nat) (b : Byte) : Memory :=
  if b = resetByte font a then m.erase a else (m.erase a).insert a b

/-- Store bytes at ascending addresses (20_memory.md R54). -/
def Memory.writeBytes (font : Font) (m : Memory) (a : Nat) : List Byte → Memory
  | [] => m
  | b :: rest => Memory.writeBytes font (m.write font a b) (a + 1) rest

/-- The canonical form: addresses strictly rising, inside memory, no cell equal to its reset contents. -/
def Memory.wf (font : Font) (m : Memory) : Bool :=
  decide (m.Pairwise fun c d => c.1 < d.1) && m.all fun c => c.1 < 4096 && c.2 != resetByte font c.1

/-- `MemRead(a, 1)` (00_scope.md R11); the callers have checked the address. -/
def State.readByte (s : State) (a : Nat) : Byte := s.mem.read s.config.font a

/-- `MemWrite` at `a`, `a + 1`, ... (00_scope.md R11); the callers have checked the addresses. -/
def State.writeBytes (s : State) (a : Nat) (bs : List Byte) : State :=
  { s with mem := s.mem.writeBytes s.config.font a bs }

/-- The state with an instruction word at PC, high byte first (20_memory.md R53). -/
def State.placeWord (s : State) (w : Word) : State := s.writeBytes s.pc.toNat [highByte w, lowByte w]

/-- The address check of an instruction that touches `len` bytes from `base` (20_memory.md R60): the lowest
address above 0xFFF among them, if there is one. -/
def lowestOutOfBounds? (base len : Nat) : Option Nat :=
  if 0 < len ∧ 0xFFF < base + len - 1 then some (max base 0x1000) else none

/-! ## Registers and PC -/

/-- V[x] (10_state.md R21: no register is hardwired) -/
def State.getV (s : State) (x : Reg) : Byte := s.v[x.val]

/-- V[x] <- b -/
def State.setV (s : State) (x : Reg) (b : Byte) : State := { s with v := s.v.set x.val b }

/-- The default advance PC <- pc0 + 2 (40_cycle_and_control.md R102) -/
def State.advance (s : State) : State := { s with pc := s.pc + 2 }

/-- The skip mechanism (41_skips.md R120), on a state whose PC is already advanced. -/
def State.skipIf (s : State) (c : Bool) : State := if c then { s with pc := s.pc + 2 } else s

/-- PC <- target -/
def State.jump (s : State) (target : Word) : State := { s with pc := target }

/-- I <- w -/
def State.setI (s : State) (w : Word) : State := { s with i := w }

/-! ## The call stack -/

/-- Push-then-increment (40_cycle_and_control.md R107); none when 16 addresses are on the stack. -/
def State.push? (s : State) (a : Word) : Option State :=
  if h : s.sp.val < 16 then
    some { s with stack := s.stack.set s.sp.val a, sp := ⟨s.sp.val + 1, by omega⟩ }
  else none

/-- Decrement-then-read (40_cycle_and_control.md R105); none when the stack is empty. The slot keeps its value. -/
def State.pop? (s : State) : Option (Word × State) :=
  if h : 0 < s.sp.val then
    some (s.stack[s.sp.val - 1], { s with sp := ⟨s.sp.val - 1, by omega⟩ })
  else none

/-! ## Faults and the fetch -/

/-- `raise F` (00_scope.md R12, 60_exceptions.md R220, R222): the state the cycle began with, PC = pc0, and the
status Faulted. -/
def State.raise (s : State) (f : Fault) : State := { s with status := .faulted f }

/-- The code of a cause (60_exceptions.md R221). -/
def Fault.code : Fault → Nat
  | .fetchOutOfBounds _ => 1
  | .memOutOfBounds _ _ _ => 2
  | .stackOverflow _ _ => 3
  | .stackUnderflow _ _ => 4
  | .keyOutOfRange _ _ _ => 5
  | .iOverflow _ _ _ _ => 6
  | .misalignedFetch _ => 7

/-- The address every record holds: the faulting PC (60_exceptions.md R223). -/
def Fault.pc0 : Fault → Word
  | .fetchOutOfBounds pc0 => pc0
  | .memOutOfBounds _ pc0 _ => pc0
  | .stackOverflow pc0 _ => pc0
  | .stackUnderflow pc0 _ => pc0
  | .keyOutOfRange _ pc0 _ => pc0
  | .iOverflow _ _ pc0 _ => pc0
  | .misalignedFetch pc0 => pc0

/-- The word of the record, when it was fetched (60_exceptions.md R223). -/
def Fault.word? : Fault → Option Word
  | .fetchOutOfBounds _ => none
  | .memOutOfBounds _ _ w => some w
  | .stackOverflow _ w => some w
  | .stackUnderflow _ w => some w
  | .keyOutOfRange _ _ w => some w
  | .iOverflow _ _ _ w => some w
  | .misalignedFetch _ => none

/-- The word at PC, big-endian (20_memory.md R53). -/
def State.instrWord (s : State) : Word :=
  wordOfBytes (s.readByte s.pc.toNat) (s.readByte (s.pc.toNat + 1))

/-- The checks of the fetch, in their order (40_cycle_and_control.md R100, R101; 60_exceptions.md R224). -/
def State.fetchFault? (s : State) : Option Fault :=
  if 0xFFE < s.pc.toNat then some (.fetchOutOfBounds s.pc)
  else if s.config.oddPc = .fault ∧ s.pc.toNat % 2 = 1 then some (.misalignedFetch s.pc)
  else none

end Sys2Proof.Machine
end

