-- ==== Sys2Proof/Machine/Flags.lean ====
section
/-! DEFINITION. The flag outputs written to VF (42_alu.md R130, R131): carry, not-borrow, the shifted-out bit and,
from the sprite plot, the collision. -/

namespace Sys2Proof.Machine

/-- A flag as VF holds it: 0 or 1 (42_alu.md R130). -/
def flagByte (c : Bool) : Byte := if c then 1 else 0

/-- The carry of an 8-bit addition (42_alu.md R138). -/
def carryOut (a b : Byte) : Bool := 255 < a.toNat + b.toNat

/-- The not-borrow of a - b, with P_SUB_EQ_FLAG for equal operands (42_alu.md R139, R141). -/
def notBorrow (eqFlag : Bool) (a b : Byte) : Bool := if a = b then eqFlag else b.toNat < a.toNat

/-- The bit SHR shifts out (42_alu.md R140). -/
def lowBit (a : Byte) : Bool := a.getLsbD 0

/-- The bit SHL shifts out (42_alu.md R142). -/
def highBit (a : Byte) : Bool := a.getLsbD 7

/-- The write order of 42_alu.md R131: the result to Vx, then the flag to VF, last. -/
def State.setResultThenFlag (s : State) (x : Reg) (res : Byte) (flag : Bool) : State :=
  (s.setV x res).setV VF (flagByte flag)

end Sys2Proof.Machine
end

