-- ==== Sys2Proof/Machine/Operands.lean ====
section
/-! DEFINITION. The operand forms: immediates, the shift source, the key operands, the glyph address, decimal
digits and the register block. -/

namespace Sys2Proof.Machine

/-- `zext_16(nnn)` (30_encoding.md R72) -/
def addrOperand (nnn : Addr12) : Word := nnn.setWidth 16

/-- `zext_16` of a byte (00_scope.md R9) -/
def byteOperand (b : Byte) : Word := b.setWidth 16

/-- The source of SHR and SHL, by P_SHIFT_SRC (42_alu.md R140, R142). -/
def State.shiftOperand (s : State) (x y : Reg) : Byte :=
  match s.config.shiftSrc with
  | .vx => s.getV x
  | .vy => s.getV y

/-- The keypad lookup of SKP and SKNP (45_keypad_and_timers.md R200): the state of key `k`, none above 15. -/
def State.keyState? (s : State) (k : Byte) : Option Bool :=
  if h : k.toNat < 16 then some s.keys[k.toNat] else none

/-- `keys_down()` (00_scope.md R12), lowest first. -/
def State.keysDown (s : State) : List Reg := (List.finRange 16).filter fun k => s.keys[k.val]

/-- The key Fx0A takes among those down, by P_KEYWAIT_PICK (45_keypad_and_timers.md R203). -/
def State.pickKey? (s : State) : Option Reg :=
  match s.config.keyWaitPick with
  | .highest => s.keysDown.max?
  | .lowest => s.keysDown.min?

/-- The address of the glyph of a value, five bytes each from address 0, with no mask to 4 bits
(43_index_and_memory.md R162). -/
def glyphAddress (b : Byte) : Word := byteOperand b * 5

/-- Hundreds, tens and ones (43_index_and_memory.md R163). -/
def bcdDigits (b : Byte) : List Byte :=
  [BitVec.ofNat 8 (b.toNat / 100), BitVec.ofNat 8 (b.toNat / 10 % 10), BitVec.ofNat 8 (b.toNat % 10)]

/-- V0..Vx (43_index_and_memory.md R164) -/
def State.regBlock (s : State) (x : Reg) : List Byte := s.v.toList.take (x.val + 1)

/-- The register file with V0..Vx read from memory at `a`, `a + 1`, ... (43_index_and_memory.md R165). -/
def State.loadBlock (s : State) (x : Reg) (a : Nat) : Vector Byte 16 :=
  Vector.ofFn fun j => if j.val ≤ x.val then s.readByte (a + j.val) else s.v[j.val]

end Sys2Proof.Machine
end

