-- ==== Sys2Proof/Machine/Alu.lean ====
section
/-! DEFINITION. Register loads, the ALU family 8xyN and RND (42_alu.md R130 to R143). Addition and subtraction are
modulo 256 (R130); the flag and the result are both of the operands before the instruction (R131). -/

namespace Sys2Proof.Machine

/-- LD Vx, kk (R132) -/
def execLdImm (x : Reg) (kk : Byte) (s : State) : Host.Outcome State Fault Refusal :=
  .next (s.advance.setV x kk)

/-- ADD Vx, kk (R133): no VF side effect. -/
def execAddImm (x : Reg) (kk : Byte) (s : State) : Host.Outcome State Fault Refusal :=
  .next (s.advance.setV x (s.getV x + kk))

/-- LD Vx, Vy (R134) -/
def execLdReg (x y : Reg) (s : State) : Host.Outcome State Fault Refusal :=
  .next (s.advance.setV x (s.getV y))

/-- OR Vx, Vy (R135): VF unchanged. -/
def execOrReg (x y : Reg) (s : State) : Host.Outcome State Fault Refusal :=
  .next (s.advance.setV x (s.getV x ||| s.getV y))

/-- AND Vx, Vy (R136): VF unchanged. -/
def execAndReg (x y : Reg) (s : State) : Host.Outcome State Fault Refusal :=
  .next (s.advance.setV x (s.getV x &&& s.getV y))

/-- XOR Vx, Vy (R137): VF unchanged. -/
def execXorReg (x y : Reg) (s : State) : Host.Outcome State Fault Refusal :=
  .next (s.advance.setV x (s.getV x ^^^ s.getV y))

/-- ADD Vx, Vy (R138) -/
def execAddReg (x y : Reg) (s : State) : Host.Outcome State Fault Refusal :=
  let a := s.getV x
  let b := s.getV y
  .next (s.advance.setResultThenFlag x (a + b) (carryOut a b))

/-- SUB Vx, Vy (R139) -/
def execSubReg (x y : Reg) (s : State) : Host.Outcome State Fault Refusal :=
  let a := s.getV x
  let b := s.getV y
  .next (s.advance.setResultThenFlag x (a - b) (notBorrow s.config.subEqFlag a b))

/-- SHR Vx, Vy (R140): the amount is always 1. -/
def execShrReg (x y : Reg) (s : State) : Host.Outcome State Fault Refusal :=
  let a := s.shiftOperand x y
  .next (s.advance.setResultThenFlag x (a >>> 1) (lowBit a))

/-- SUBN Vx, Vy (R141): Vy - Vx. -/
def execSubnReg (x y : Reg) (s : State) : Host.Outcome State Fault Refusal :=
  let a := s.getV x
  let b := s.getV y
  .next (s.advance.setResultThenFlag x (b - a) (notBorrow s.config.subEqFlag b a))

/-- SHL Vx, Vy (R142): the amount is always 1. -/
def execShlReg (x y : Reg) (s : State) : Host.Outcome State Fault Refusal :=
  let a := s.shiftOperand x y
  .next (s.advance.setResultThenFlag x (a <<< 1) (highBit a))

/-- RND on a drawn byte `r` (R143). -/
def State.randomAnd (s : State) (r : Byte) (x : Reg) (kk : Byte) : State :=
  { s.setV x (r &&& kk) with draws := s.draws + 1 }

/-- RND Vx, kk (R143): `draw_byte()` is the next free value (log entry 2). -/
def execRnd (x : Reg) (kk : Byte) (s : State) : Host.Outcome State Fault Refusal :=
  .next (s.advance.randomAnd (Config.drawByte s.draws) x kk)

end Sys2Proof.Machine
end

