-- ==== Sys2Proof/Machine/Control.lean ====
section
/-! DEFINITION. Control transfer (40_cycle_and_control.md R105 to R108) and the no-op of an unassigned word. A
meaning takes the state its cycle began with, PC = pc0, and does the default advance itself. -/

namespace Sys2Proof.Machine

/-- RET (R105) -/
def execRet (s : State) : Host.Outcome State Fault Refusal :=
  match s.advance.pop? with
  | none => .next (s.raise (.stackUnderflow s.pc s.instrWord))
  | some (a, t) => .next (t.jump a)

/-- JP nnn (R106) -/
def execJp (nnn : Addr12) (s : State) : Host.Outcome State Fault Refusal :=
  .next (s.advance.jump (addrOperand nnn))

/-- CALL nnn (R107): the pushed PC is the advanced one. -/
def execCall (nnn : Addr12) (s : State) : Host.Outcome State Fault Refusal :=
  match s.advance.push? s.advance.pc with
  | none => .next (s.raise (.stackOverflow s.pc s.instrWord))
  | some t => .next (t.jump (addrOperand nnn))

/-- JP V0, nnn (R108): the base is always V0. -/
def execJpV0 (nnn : Addr12) (s : State) : Host.Outcome State Fault Refusal :=
  .next (s.advance.jump (byteOperand (s.getV 0) + addrOperand nnn))

/-- The whole effect of a word that matches no row: the default advance (30_encoding.md R76). -/
def execUnassigned (s : State) : Host.Outcome State Fault Refusal := .next s.advance

/-- A cycle of a Faulted core: nothing runs and the state does not change (60_exceptions.md R227, R236). -/
def execHalted (_ : Fault) (s : State) : Host.Outcome State Fault Refusal := .next s

end Sys2Proof.Machine
end

