-- ==== Sys2Proof/Machine/Framebuffer.lean ====
section
/-! DEFINITION. The framebuffer and the sprite plot (44_display.md R180 to R183). -/

namespace Sys2Proof.Machine

/-- FB[row][col] (10_state.md R30) -/
def Framebuffer.get (fb : Framebuffer) (row : Fin 32) (col : Fin 64) : Bool := fb[row.val][col.val]

/-- FB[row][col] <- p -/
def Framebuffer.set (fb : Framebuffer) (row : Fin 32) (col : Fin 64) (p : Bool) : Framebuffer :=
  Vector.set fb row.val (fb[row.val].set col.val p)

/-- One sprite bit meets its pixel (44_display.md R181, R182): a bit 1 inverts the pixel, and is a collision when
the pixel was 1; a bit 0 does nothing. -/
def plotBit (row : Fin 32) (col : Fin 64) (bit : Bool) (acc : Framebuffer × Bool) : Framebuffer × Bool :=
  if bit then (Framebuffer.set acc.1 row col (!Framebuffer.get acc.1 row col), acc.2 || Framebuffer.get acc.1 row col)
  else acc

/-- One sprite byte, most significant bit first, on row `y` from column `x`, each wrapping on its own
(44_display.md R181, R183). -/
def plotRow (byte : Byte) (y x : Nat) (acc : Framebuffer × Bool) : Framebuffer × Bool :=
  (List.range 8).foldl
    (fun acc b => plotBit (Fin.ofNat 32 y) (Fin.ofNat 64 (x + b)) (byte.getLsbD (7 - b)) acc) acc

/-- `draw_sprite(memory, byte_count, address, x, y)`: the new framebuffer and the collision (44_display.md
R181, R182). -/
def drawSprite (s : State) (count address x y : Nat) : Framebuffer × Bool :=
  (List.range count).foldl (fun acc r => plotRow (s.readByte (address + r)) (y + r) x acc) (s.fb, false)

end Sys2Proof.Machine
end

