-- ==== Sys2Proof/Machine/Display.lean ====
section
/-! DEFINITION. The display instructions (44_display.md R184, R185). -/

namespace Sys2Proof.Machine

/-- CLS (R184) -/
def execCls (s : State) : Host.Outcome State Fault Refusal :=
  .next { s.advance with fb := Framebuffer.blank }

/-- DRW Vx, Vy, n (R185): the coordinates are read before VF is written, the collision is written last. -/
def execDrw (x y : Reg) (n : Fin 16) (s : State) : Host.Outcome State Fault Refusal :=
  match lowestOutOfBounds? s.i.toNat n.val with
  | some a => .next (s.raise (.memOutOfBounds a s.pc s.instrWord))
  | none =>
    let p := drawSprite s n.val s.i.toNat (s.getV x).toNat (s.getV y).toNat
    .next ({ s.advance with fb := p.1 }.setV VF (flagByte p.2))

end Sys2Proof.Machine
end

