-- ==== Sys2Proof/Machine/Index.lean ====
section
/-! DEFINITION. The index register and memory transfers (43_index_and_memory.md R160 to R165). The addresses are
checked before anything is written, and I is unchanged by the transfers. -/

namespace Sys2Proof.Machine

/-- LD I, nnn (R160) -/
def execLdI (nnn : Addr12) (s : State) : Host.Outcome State Fault Refusal :=
  .next (s.advance.setI (addrOperand nnn))

/-- ADD I, Vx (R161): not masked to 12 bits; a sum beyond 16 bits faults. -/
def execAddI (x : Reg) (s : State) : Host.Outcome State Fault Refusal :=
  if 0xFFFF < s.i.toNat + (s.getV x).toNat then
    .next (s.raise (.iOverflow s.i (s.getV x) s.pc s.instrWord))
  else .next (s.advance.setI (s.i + byteOperand (s.getV x)))

/-- LD F, Vx (R162) -/
def execLdFont (x : Reg) (s : State) : Host.Outcome State Fault Refusal :=
  .next (s.advance.setI (glyphAddress (s.getV x)))

/-- LD B, Vx (R163) -/
def execLdBcd (x : Reg) (s : State) : Host.Outcome State Fault Refusal :=
  match lowestOutOfBounds? s.i.toNat 3 with
  | some a => .next (s.raise (.memOutOfBounds a s.pc s.instrWord))
  | none => .next (s.advance.writeBytes s.i.toNat (bcdDigits (s.getV x)))

/-- LD [I], Vx (R164) -/
def execStoreRegs (x : Reg) (s : State) : Host.Outcome State Fault Refusal :=
  match lowestOutOfBounds? s.i.toNat (x.val + 1) with
  | some a => .next (s.raise (.memOutOfBounds a s.pc s.instrWord))
  | none => .next (s.advance.writeBytes s.i.toNat (s.regBlock x))

/-- LD Vx, [I] (R165) -/
def execLoadRegs (x : Reg) (s : State) : Host.Outcome State Fault Refusal :=
  match lowestOutOfBounds? s.i.toNat (x.val + 1) with
  | some a => .next (s.raise (.memOutOfBounds a s.pc s.instrWord))
  | none => .next { s.advance with v := s.loadBlock x s.i.toNat }

end Sys2Proof.Machine
end

