-- ==== Sys2Proof/Machine/KeypadTimers.lean ====
section
/-! DEFINITION. The keypad and timer instructions (45_keypad_and_timers.md R200 to R206). -/

namespace Sys2Proof.Machine

/-- SKP Vx (R201) -/
def execSkp (x : Reg) (s : State) : Host.Outcome State Fault Refusal :=
  match s.keyState? (s.getV x) with
  | none => .next (s.raise (.keyOutOfRange (s.getV x) s.pc s.instrWord))
  | some down => .next (s.advance.skipIf down)

/-- SKNP Vx (R202) -/
def execSknp (x : Reg) (s : State) : Host.Outcome State Fault Refusal :=
  match s.keyState? (s.getV x) with
  | none => .next (s.raise (.keyOutOfRange (s.getV x) s.pc s.instrWord))
  | some down => .next (s.advance.skipIf (!down))

/-- LD Vx, DT (R204) -/
def execLdVxDt (x : Reg) (s : State) : Host.Outcome State Fault Refusal :=
  .next (s.advance.setV x s.dt)

/-- LD Vx, K (R203): with no key down the default advance is cancelled and the cycle changes nothing. -/
def execLdVxKey (x : Reg) (s : State) : Host.Outcome State Fault Refusal :=
  match s.pickKey? with
  | none => .next (s.advance.jump (s.advance.pc - 2))
  | some k => .next (s.advance.setV x (BitVec.ofNat 8 k.val))

/-- LD DT, Vx (R205) -/
def execLdDtVx (x : Reg) (s : State) : Host.Outcome State Fault Refusal :=
  .next { s.advance with dt := s.getV x }

/-- LD ST, Vx (R206) -/
def execLdStVx (x : Reg) (s : State) : Host.Outcome State Fault Refusal :=
  .next { s.advance with st := s.getV x }

end Sys2Proof.Machine
end

