-- ==== Sys2Proof/Machine/Skips.lean ====
section
/-! DEFINITION. The register and immediate skips (41_skips.md R120 to R124). -/

namespace Sys2Proof.Machine

/-- SE Vx, kk (R121) -/
def execSeImm (x : Reg) (kk : Byte) (s : State) : Host.Outcome State Fault Refusal :=
  .next (s.advance.skipIf (s.getV x == kk))

/-- SNE Vx, kk (R122) -/
def execSneImm (x : Reg) (kk : Byte) (s : State) : Host.Outcome State Fault Refusal :=
  .next (s.advance.skipIf (s.getV x != kk))

/-- SE Vx, Vy (R123) -/
def execSeReg (x y : Reg) (s : State) : Host.Outcome State Fault Refusal :=
  .next (s.advance.skipIf (s.getV x == s.getV y))

/-- SNE Vx, Vy (R124): skip if unequal (conflict C8). -/
def execSneReg (x y : Reg) (s : State) : Host.Outcome State Fault Refusal :=
  .next (s.advance.skipIf (s.getV x != s.getV y))

end Sys2Proof.Machine
end

