-- ==== Sys2Proof/Machine/Step.lean ====
section
/-! DEFINITION. `execute_cycle` (40_cycle_and_control.md R100) and the placing of an instruction at PC. -/

namespace Sys2Proof.Machine

/-- One call of `execute_cycle`. A Faulted core is terminal: a cycle does not change its state (60_exceptions.md
R236). -/
def step (s : State) : Host.Outcome State Fault Refusal :=
  match s.status with
  | .faulted f => execHalted f s
  | .running =>
    match s.fetchFault? with
    | some f => .next (s.raise f)
    | none =>
      match decodeWord s.config.strictDecode s.instrWord with
      | .ok i => exec i s
      | .error _ => execUnassigned s

/-- The state with the instruction whose bits are the low `nbits` bits of `w` stored at PC, high byte first
(20_memory.md R53). It stands for a host load (log entry 9). -/
def State.withFetchWord (s : State) (nbits w : Nat) : State :=
  s.placeWord (wordOfBits nbits w)

end Sys2Proof.Machine
end

