-- ==== Sys2Proof/WellFormed.lean ====
section
/-! DEFINITION. Well-formedness: the ranges the spec gives to operand fields (30_encoding.md R71), to the key
index of a host event (60_exceptions.md R233) and to the length of a ROM (60_exceptions.md R232). The types of
`Instr`'s operands are already exactly these ranges, so an instruction built from raw numbers is checked here
and an `Instr` is always well formed (Laws/WellFormed.lean proves it). -/

namespace Sys2Proof

/-- The operand fields of an instruction word (30_encoding.md R71). -/
inductive Field where
  | x
  | y
  | n
  | kk
  | nnn
  deriving DecidableEq, Repr

/-- The field's width in bits (30_encoding.md R71). -/
def Field.width : Field → Nat
  | .x | .y | .n => 4
  | .kk => 8
  | .nnn => 12

/-- Whether the raw number `v` is a value of the field: unsigned and unscaled (30_encoding.md R72). -/
def Field.fits (f : Field) (v : Nat) : Bool := v < 2 ^ f.width

/-- The operands of an instruction as raw numbers, field by field (the "fields" of spec/opcode_table.json). -/
def Instr.operands : Instr → List (Field × Nat)
  | .cls => []
  | .ret => []
  | .jp nnn => [(.nnn, nnn.toNat)]
  | .call nnn => [(.nnn, nnn.toNat)]
  | .seImm x kk => [(.x, x.val), (.kk, kk.toNat)]
  | .sneImm x kk => [(.x, x.val), (.kk, kk.toNat)]
  | .seReg x y => [(.x, x.val), (.y, y.val)]
  | .ldImm x kk => [(.x, x.val), (.kk, kk.toNat)]
  | .addImm x kk => [(.x, x.val), (.kk, kk.toNat)]
  | .ldReg x y => [(.x, x.val), (.y, y.val)]
  | .orReg x y => [(.x, x.val), (.y, y.val)]
  | .andReg x y => [(.x, x.val), (.y, y.val)]
  | .xorReg x y => [(.x, x.val), (.y, y.val)]
  | .addReg x y => [(.x, x.val), (.y, y.val)]
  | .subReg x y => [(.x, x.val), (.y, y.val)]
  | .shrReg x y => [(.x, x.val), (.y, y.val)]
  | .subnReg x y => [(.x, x.val), (.y, y.val)]
  | .shlReg x y => [(.x, x.val), (.y, y.val)]
  | .sneReg x y => [(.x, x.val), (.y, y.val)]
  | .ldI nnn => [(.nnn, nnn.toNat)]
  | .jpV0 nnn => [(.nnn, nnn.toNat)]
  | .rnd x kk => [(.x, x.val), (.kk, kk.toNat)]
  | .drw x y n => [(.x, x.val), (.y, y.val), (.n, n.val)]
  | .skp x => [(.x, x.val)]
  | .sknp x => [(.x, x.val)]
  | .ldVxDt x => [(.x, x.val)]
  | .ldVxKey x => [(.x, x.val)]
  | .ldDtVx x => [(.x, x.val)]
  | .ldStVx x => [(.x, x.val)]
  | .addI x => [(.x, x.val)]
  | .ldFont x => [(.x, x.val)]
  | .ldBcd x => [(.x, x.val)]
  | .storeRegs x => [(.x, x.val)]
  | .loadRegs x => [(.x, x.val)]

/-- Every operand is a value of its field. -/
def Instr.wellFormed (i : Instr) : Bool := i.operands.all fun o => o.1.fits o.2

/-- The key indices of host key events: 0..15 (60_exceptions.md R233). -/
def keyIndexOk (k : Nat) : Bool := k < 16

/-- The ROM lengths `load_rom` accepts: at most MAX_ROM = 3584 bytes (00_scope.md R6, 60_exceptions.md R232). -/
def romLengthOk (len : Nat) : Bool := len ≤ 3584

end Sys2Proof
end

