-- ==== Sys2Proof/Machine/HostInterface.lean ====
section
/-! DEFINITION. The host's calls (60_exceptions.md R230 to R237): events applied between cycles, and the outputs
the host reads. -/

namespace Sys2Proof.Machine

/-! ## Outputs -/

/-- `sound_active = (ST != 0)` (R231) -/
def State.soundActive (s : State) : Bool := s.st != 0

/-- The framebuffer snapshot (R234). -/
def State.snapshot (s : State) : Framebuffer := s.fb

/-! ## Inputs -/

/-- One timer, clamped at 0 (R230). -/
def countDown (t : Byte) : Byte := if t = 0 then 0 else t - 1

/-- `decrement_timers()` (R230) -/
def State.tick (s : State) : State := { s with dt := countDown s.dt, st := countDown s.st }

/-- KEY[k] <- down (R233); none when k is no key. -/
def State.setKey? (s : State) (k : Nat) (down : Bool) : Option State :=
  if h : k < 16 then some { s with keys := s.keys.set k down } else none

/-- What `load_rom` returns to the host (R232). -/
inductive LoadResult where
  | loaded
  | romTooLarge (len : Nat)
  /-- On a Faulted core, where nothing changes (R236). DESIGN CHOICE, safe: the spec names no result (log entry 6). -/
  | ignored
  deriving DecidableEq, Repr

/-- `load_rom` on a Running core (R232): too long is rejected before any byte is written. -/
def State.loadRom (s : State) (bytes : List Byte) : LoadResult × State :=
  if romLengthOk bytes.length then (.loaded, s.writeBytes 0x200 bytes)
  else (.romTooLarge bytes.length, s)

/-- The host events of R235. -/
inductive Event where
  | cycle
  | tick
  | keyDown (k : Nat)
  | keyUp (k : Nat)
  | loadRom (bytes : List Byte)
  | readFramebuffer
  deriving DecidableEq, Repr

/-- The events a host sends: key indices are 0..15 (R233, decision D19). -/
def Event.admitted : Event → Bool
  | .keyDown k | .keyUp k => keyIndexOk k
  | .cycle | .tick | .loadRom _ | .readFramebuffer => true

/-- One host event. A Faulted core is terminal (R236), and on a Running core a key event above 15 has no move (R233).
DESIGN CHOICE (log entry 5): on a Faulted core a key event above 15 leaves the state as it is. The spec leaves that
open, since R233 gives the event no move and R236 says that no event changes a Faulted core. Safe. -/
def applyEvent (e : Event) (s : State) : Host.Outcome State Fault Refusal :=
  match s.status with
  | .faulted _ => .next s
  | .running =>
    match e with
    | .cycle => step s
    | .tick => .next s.tick
    | .keyDown k =>
      match s.setKey? k true with
      | some t => .next t
      | none => .refused (.keyEventOutOfRange k)
    | .keyUp k =>
      match s.setKey? k false with
      | some t => .next t
      | none => .refused (.keyEventOutOfRange k)
    | .loadRom bytes => .next (s.loadRom bytes).2
    | .readFramebuffer => .next s

/-- The result `load_rom` returns in any status (R232, R236). -/
def loadResult (bytes : List Byte) (s : State) : LoadResult :=
  match s.status with
  | .faulted _ => .ignored
  | .running => (s.loadRom bytes).1

/-- Any finite sequence of host events, in the host's order (R235; 20_memory.md R64). -/
def runEvents : List Event → State → Host.Outcome State Fault Refusal
  | [], s => .next s
  | e :: rest, s =>
    match applyEvent e s with
    | .next t => runEvents rest t
    | .fault f => .fault f
    | .refused r => .refused r

/-- An infinite sequence of host events, event `n` the n-th (R235): what its first `n` events come to. The run it
makes is these answers for every `n`. -/
def runStream (events : Nat → Event) (s : State) : Nat → Host.Outcome State Fault Refusal
  | 0 => .next s
  | n + 1 =>
    match runStream events s n with
    | .next t => applyEvent (events n) t
    | .fault f => .fault f
    | .refused r => .refused r

end Sys2Proof.Machine
end

