-- ==== Sys2Proof/Safety.lean ====
section
/-! DEFINITION. What a claim means by a sound state and by a safe run, and the tables claims about every instruction
use. -/

namespace Sys2Proof.Machine

/-- The ranges every reachable state keeps: memory in its canonical form, PC at most 0x10FE, every stack slot at
most 0x1000 (40_cycle_and_control.md R107, R109). -/
abbrev State.Inv (s : State) : Prop :=
  s.mem.wf s.config.font = true ∧ s.pc.toNat ≤ 0x10FE ∧ ∀ j : Fin 16, s.stack[j.val].toNat ≤ 0x1000

/-- The core runs: no fault has been raised (10_state.md R32). -/
abbrev State.Running (s : State) : Prop := s.status = .running

/-- The fetch at PC succeeds (40_cycle_and_control.md R101). -/
abbrev State.CanFetch (s : State) : Prop :=
  s.pc.toNat ≤ 0xFFE ∧ (s.config.oddPc = .execute ∨ s.pc.toNat % 2 = 0)

/-- A sequence of host events is safe from a state when every event has a move and no fault is raised. -/
def SafeRun : List Event → State → Prop
  | [], s => s.Running
  | e :: rest, s => s.Running ∧ ∃ t, applyEvent e s = .next t ∧ SafeRun rest t


/-- The V registers an instruction may write: its named destination, VF where it has a flag output, V0..Vx for
Fx65 (10_state.md R21, R22). -/
def WritesV (i : Instr) (j : Reg) : Prop :=
  match i with
  | .cls | .ret | .jp _ | .call _ | .seImm _ _ | .sneImm _ _ | .seReg _ _ | .sneReg _ _ => False
  | .ldI _ | .jpV0 _ | .skp _ | .sknp _ | .ldDtVx _ | .ldStVx _ | .addI _ => False
  | .ldFont _ | .ldBcd _ | .storeRegs _ => False
  | .ldImm x _ | .addImm x _ | .ldReg x _ | .orReg x _ | .andReg x _ | .xorReg x _ => j = x
  | .rnd x _ | .ldVxDt x | .ldVxKey x => j = x
  | .addReg x _ | .subReg x _ | .shrReg x _ | .subnReg x _ | .shlReg x _ => j = x ∨ j = VF
  | .drw _ _ _ => j = VF
  | .loadRegs x => j ≤ x

/-- How many bytes from address I an instruction stores to (20_memory.md R61). -/
def StoredLength (i : Instr) : Nat :=
  match i with
  | .ldBcd _ => 3
  | .storeRegs x => x.val + 1
  | .cls | .ret | .jp _ | .call _ | .seImm _ _ | .sneImm _ _ | .seReg _ _ | .sneReg _ _ => 0
  | .ldI _ | .jpV0 _ | .skp _ | .sknp _ | .ldDtVx _ | .ldStVx _ | .addI _ | .ldFont _ => 0
  | .ldImm _ _ | .addImm _ _ | .ldReg _ _ | .orReg _ _ | .andReg _ _ | .xorReg _ _ => 0
  | .rnd _ _ | .ldVxDt _ | .ldVxKey _ | .addReg _ _ | .subReg _ _ | .shrReg _ _ => 0
  | .subnReg _ _ | .shlReg _ _ | .drw _ _ _ | .loadRegs _ => 0

/-- PC after an instruction that raised no fault (40_cycle_and_control.md R102, R105 to R108; 41_skips.md R120;
45_keypad_and_timers.md R203). -/
def PcAfter (i : Instr) (s t : State) : Prop :=
  match i with
  | .jp nnn | .call nnn => t.pc = nnn.setWidth 16
  | .jpV0 nnn => t.pc = s.v[0].setWidth 16 + nnn.setWidth 16
  | .ret => ∃ _ : 0 < s.sp.val, t.pc = s.stack[s.sp.val - 1]
  | .seImm _ _ | .sneImm _ _ | .seReg _ _ | .sneReg _ _ | .skp _ | .sknp _ =>
    t.pc = s.pc + 2 ∨ t.pc = s.pc + 4
  | .ldVxKey _ => t.pc = s.pc + 2 ∨ t.pc = s.pc
  | .cls | .ldI _ | .ldDtVx _ | .ldStVx _ | .addI _ | .ldFont _ | .ldBcd _ | .storeRegs _ => t.pc = s.pc + 2
  | .ldImm _ _ | .addImm _ _ | .ldReg _ _ | .orReg _ _ | .andReg _ _ | .xorReg _ _ => t.pc = s.pc + 2
  | .rnd _ _ | .ldVxDt _ | .addReg _ _ | .subReg _ _ | .shrReg _ _ => t.pc = s.pc + 2
  | .subnReg _ _ | .shlReg _ _ | .drw _ _ _ | .loadRegs _ => t.pc = s.pc + 2

/-- The one cause of 60_exceptions.md R221 an instruction can raise, by its code (R224); none raises two. -/
def CauseCode (i : Instr) : Option Nat :=
  match i with
  | .drw _ _ _ | .ldBcd _ | .storeRegs _ | .loadRegs _ => some 2
  | .call _ => some 3
  | .ret => some 4
  | .skp _ | .sknp _ => some 5
  | .addI _ => some 6
  | .cls | .jp _ | .seImm _ _ | .sneImm _ _ | .seReg _ _ | .sneReg _ _ | .ldI _ | .jpV0 _ => none
  | .ldDtVx _ | .ldStVx _ | .ldFont _ | .ldImm _ _ | .addImm _ _ | .ldReg _ _ | .orReg _ _ => none
  | .andReg _ _ | .xorReg _ _ | .rnd _ _ | .ldVxDt _ | .ldVxKey _ | .addReg _ _ | .subReg _ _ => none
  | .shrReg _ _ | .subnReg _ _ | .shlReg _ _ => none

end Sys2Proof.Machine
end

