-- ==== Sys2Proof/Certificates/Slice0/Obligations.lean ====
section
/-! DEFINITION. What is claimed of the model. Each statement holds for every value of the parameters of 00_scope.md
R7 (they are `State.config`) and for every free random byte. -/

open Sys2Proof Sys2Proof.Machine

/-! ## Encoding -/

/-- Eight words written out from 30_encoding.md R73 decode to their instructions, high byte first, and 0123 is
unassigned. That one byte alone is `truncated` is the model's choice (log entry 10). -/
def Obligations.SampleWordsDecode : Prop :=
  decode true [0x6A, 0x02] = .ok (.ldImm 10 0x02, []) ∧
  decode true [0x83, 0x3E, 0x12] = .ok (.shlReg 3 3, [0x12]) ∧
  decodeWord true 0x00EE = .ok .ret ∧ decodeWord true 0x2ABC = .ok (.call 0xABC) ∧
  decodeWord true 0x9120 = .ok (.sneReg 1 2) ∧ decodeWord true 0xD125 = .ok (.drw 1 2 5) ∧
  decodeWord true 0xE3A1 = .ok (.sknp 3) ∧ decodeWord true 0xF265 = .ok (.loadRegs 2) ∧
  decodeWord true 0x0123 = .error (.unassigned 0x0123) ∧ decode true [0x6A] = .error .truncated

/-- The bytes of every instruction decode to it, with every operand, in both decoding modes (30_encoding.md R71,
R73 to R75). -/
def Obligations.DecodeEncodeRoundTrip : Prop :=
  ∀ (strict : Bool) (i : Instr) (rest : List Byte),
    decode strict (encodeBytes i ++ rest) = .ok (i, rest)

/-- 30_encoding.md R73, R74: a word decodes to the instruction whose row selects it and whose operands are its
fields; no two rows select it; a word no row selects is unassigned. -/
def Obligations.StrictDecodeIsTheOpcodeTable : Prop :=
  (∀ (w : Word) (i : Instr), i.row.selects w = true →
    ∃ j, decodeWord true w = .ok j ∧ j.row = i.row ∧ encode j = w) ∧
  (∀ (w : Word) (i j : Instr), i.row.selects w = true → j.row.selects w = true → i.row = j.row) ∧
  (∀ w : Word, (∀ i : Instr, i.row.selects w = false) → decodeWord true w = .error (.unassigned w))

/-- 30_encoding.md R75. -/
def Obligations.LooseDecodeFollowsTheProse : Prop :=
  ∀ w : Word,
    (opField w = 0 → decodeWord false w =
      if kkField w = 0xE0 then .ok .cls else if kkField w = 0xEE then .ok .ret else .error (.unassigned w)) ∧
    (opField w = 5 → decodeWord false w = .ok (.seReg (xField w) (yField w))) ∧
    (opField w = 9 → decodeWord false w = .ok (.sneReg (xField w) (yField w))) ∧
    (opField w ≠ 0 → opField w ≠ 5 → opField w ≠ 9 → decodeWord false w = decodeWord true w)

/-- 30_encoding.md R76: which words are unassigned when decoding is strict, and that a cycle on an unassigned word
(in either mode) only advances PC. -/
def Obligations.UnassignedWordsAreNoOps : Prop :=
  (∀ w : Word, decodeWord true w = .error (.unassigned w) ↔
    (opField w = 0 ∧ w ≠ 0x00E0 ∧ w ≠ 0x00EE) ∨
    ((opField w = 5 ∨ opField w = 9) ∧ nField w ≠ 0) ∨
    (opField w = 8 ∧ (nField w).val ∈ [8, 9, 0xA, 0xB, 0xC, 0xD, 0xF]) ∨
    (opField w = 0xE ∧ (kkField w).toNat ∉ [0x9E, 0xA1]) ∨
    (opField w = 0xF ∧ (kkField w).toNat ∉ [0x07, 0x0A, 0x15, 0x18, 0x1E, 0x29, 0x33, 0x55, 0x65])) ∧
  ∀ s : State, s.Running → s.CanFetch →
    decodeWord s.config.strictDecode s.instrWord = .error (.unassigned s.instrWord) →
    step s = .next { s with pc := s.pc + 2 }

/-! ## The cycle -/

/-- 40_cycle_and_control.md R100: a cycle whose big-endian word decodes to an instruction is that instruction's
execution; the default advance is part of what `exec` does. -/
def Obligations.StepRunsTheDecodedInstruction : Prop :=
  ∀ (s : State) (i : Instr), s.Running → s.CanFetch →
    decodeWord s.config.strictDecode
      (s.readByte s.pc.toNat ++ s.readByte (s.pc.toNat + 1) : BitVec (8 + 8)) = .ok i →
    step s = exec i s

/-- 40_cycle_and_control.md R101: the fetch checks and their order, and that 0xFFE is fetchable. -/
def Obligations.FetchChecks : Prop :=
  ∀ s : State, s.Running →
    (0xFFE < s.pc.toNat → step s = .next { s with status := .faulted (.fetchOutOfBounds s.pc) }) ∧
    (s.pc.toNat ≤ 0xFFE → s.config.oddPc = .fault → s.pc.toNat % 2 = 1 →
      step s = .next { s with status := .faulted (.misalignedFetch s.pc) }) ∧
    (s.pc.toNat ≤ 0xFFE → (s.config.oddPc = .execute ∨ s.pc.toNat % 2 = 0) → s.fetchFault? = none)

/-- A word stored at PC is fetched and run by the very next cycle (20_memory.md R53, R67). -/
def Obligations.PlacedWordRunsNext : Prop :=
  ∀ (s : State) (w : Word) (i : Instr), s.Running → s.CanFetch →
    decodeWord s.config.strictDecode w = .ok i →
    step (s.withFetchWord 16 w.toNat) = exec i (s.withFetchWord 16 w.toNat)

/-- A program that stores over its own next instruction runs the bytes it stored (20_memory.md R67,
70_reset_and_hazards.md R265). -/
def Obligations.StoredCodeRunsNext : Prop :=
  ∀ (s t : State) (x : Reg) (i : Instr), s.Running → s.CanFetch → 1 ≤ x.val →
    s.i = s.pc + 2 → s.i.toNat + x.val ≤ 0xFFF →
    decodeWord s.config.strictDecode (wordOfBytes s.v[0] s.v[1]) = .ok i →
    exec (.storeRegs x) s = .next t → step t = exec i t

/-- 40_cycle_and_control.md R102: the default advance and what replaces it, for every instruction. An instruction
that faults leaves PC. -/
def Obligations.PcAfterEveryInstruction : Prop :=
  ∀ (i : Instr) (s t : State), s.Running → exec i s = .next t →
    (t.Running → PcAfter i s t) ∧ (¬t.Running → t.pc = s.pc)

/-! ## Faults -/

/-- 40_cycle_and_control.md R104, 60_exceptions.md R222, R223: a faulting cycle changes nothing but the status, and its record holds PC and, when
it was fetched, the word. -/
def Obligations.FaultsArePrecise : Prop :=
  ∀ (s t : State) (f : Fault), s.Running → step s = .next t → t.status = .faulted f →
    t = { s with status := .faulted f } ∧ f.pc0 = s.pc ∧
      f.word? = if f.code = 1 ∨ f.code = 7 then none else some s.instrWord

/-- 60_exceptions.md R221, R224: each instruction raises at most its own cause. -/
def Obligations.EachInstructionRaisesItsOwnCause : Prop :=
  ∀ (i : Instr) (s t : State) (f : Fault), s.Running → exec i s = .next t → t.status = .faulted f →
    CauseCode i = some f.code

/-- 60_exceptions.md R236: Faulted is never left, whatever the host does. That a cycle of a Faulted core answers the
same state is the model's inference (log entry 3, DEDUCED: R100 admits `execute_cycle` only when Running), and that a
key event above 15 does is its choice (log entry 5). -/
def Obligations.FaultedCoreIsTerminal : Prop :=
  ∀ (s : State) (f : Fault), s.status = .faulted f →
    step s = .next s ∧ (∀ e : Event, applyEvent e s = .next s) ∧
    ∀ events : List Event, runEvents events s = .next s

/-- No cycle and no admitted host event ends in a stop: the machine always has a next state (30_encoding.md R77).
That a faulting cycle and a cycle of a Faulted core have one is the model's choice (log entry 3, DESIGN CHOICE and
DEDUCED): the spec calls a fault an aborted run (60_exceptions.md R220). -/
def Obligations.MachineNeverStops : Prop :=
  (∀ s : State, ∃ t, step s = .next t) ∧
  ∀ (e : Event) (s : State), (∀ k, e = .keyDown k ∨ e = .keyUp k → k ≤ 15) → ∃ t, applyEvent e s = .next t

/-! ## Reset and the invariant -/

/-- 70_reset_and_hazards.md R260. The zeros of V, I, SP, stack, DT and ST are the spec's own decision D1, and the
font bytes are those of the default P_FONT (D18). -/
def Obligations.ResetState : Prop :=
  (∀ a < 4096, State.reset.readByte a =
    if h : a < 80 then Config.defaultFont[a / 5][a % 5] else 0) ∧
  State.reset.pc = 0x200 ∧ State.reset.Running ∧
  (∀ (row : Fin 32) (col : Fin 64), State.reset.fb[row.val][col.val] = false) ∧
  (∀ k : Fin 16, State.reset.keys[k.val] = false) ∧
  (∀ x : Reg, State.reset.v[x.val] = 0) ∧ State.reset.i = 0 ∧ State.reset.sp = 0 ∧
  (∀ j : Fin 16, State.reset.stack[j.val] = 0) ∧ State.reset.dt = 0 ∧ State.reset.st = 0 ∧
  State.reset.config = Config.default

/-- The state after reset is sound. -/
def Obligations.ResetIsSound : Prop := State.reset.Inv

/-- Every cycle and every sequence of host events keeps the invariant: canonical memory, PC at most 0x10FE, stack
slots at most 0x1000 (40_cycle_and_control.md R109). -/
def Obligations.InvariantIsKept : Prop :=
  ∀ s : State, s.Inv →
    (∀ t, step s = .next t → t.Inv) ∧
    ∀ (events : List Event) (t : State), runEvents events s = .next t → t.Inv

/-! ## Control transfer -/

/-- 40_cycle_and_control.md R106. -/
def Obligations.JumpSetsPc : Prop :=
  ∀ (nnn : Addr12) (s : State),
    (∀ strict, decodeWord strict (wordNNN 0x1 nnn) = .ok (.jp nnn)) ∧
    exec (.jp nnn) s = .next { s with pc := nnn.setWidth 16 }

/-- 40_cycle_and_control.md R108: the base is always V0; a 16-bit add with no overflow check. -/
def Obligations.JumpV0AddsV0 : Prop :=
  ∀ (nnn : Addr12) (s : State),
    (∀ strict, decodeWord strict (wordNNN 0xB nnn) = .ok (.jpV0 nnn)) ∧
    exec (.jpV0 nnn) s = .next { s with pc := BitVec.ofNat 16 (s.v[0].toNat + nnn.toNat) }

/-- 40_cycle_and_control.md R107. -/
def Obligations.CallPushesThenJumps : Prop :=
  ∀ (nnn : Addr12) (s : State),
    (∀ strict, decodeWord strict (wordNNN 0x2 nnn) = .ok (.call nnn)) ∧
    (∀ h : s.sp.val < 16, exec (.call nnn) s = .next
      { s with
        stack := s.stack.set s.sp.val (s.pc + 2)
        sp := ⟨s.sp.val + 1, by omega⟩
        pc := nnn.setWidth 16 }) ∧
    (s.sp.val = 16 →
      exec (.call nnn) s = .next { s with status := .faulted (.stackOverflow s.pc s.instrWord) })

/-- 40_cycle_and_control.md R105: the popped slot keeps its value. -/
def Obligations.ReturnPops : Prop :=
  ∀ s : State,
    (∀ x : Reg, decodeWord false (wordXKK 0x0 x 0xEE) = .ok .ret) ∧ decodeWord true 0x00EE = .ok .ret ∧
    (∀ h : 0 < s.sp.val, exec .ret s = .next
      { s with sp := ⟨s.sp.val - 1, by omega⟩, pc := s.stack[s.sp.val - 1] }) ∧
    (s.sp.val = 0 →
      exec .ret s = .next { s with status := .faulted (.stackUnderflow s.pc s.instrWord) })

/-- A call and a return that finds the stack as the call left it come back to the instruction after the call, at
every nesting depth (95_test_vectors.md W6; 40_cycle_and_control.md R105, R107). -/
def Obligations.CallThenReturnComesBack : Prop :=
  ∀ (nnn : Addr12) (s t u : State), s.sp.val < 16 → exec (.call nnn) s = .next t →
    u.sp = t.sp → u.stack = t.stack →
    ∃ r, exec .ret u = .next r ∧ r.pc = s.pc + 2 ∧ r.sp = s.sp ∧
      ∀ j : Fin 16, j.val < s.sp.val → r.stack[j.val] = s.stack[j.val]

/-! ## Skips -/

/-- 41_skips.md R120, R121, R122. -/
def Obligations.SkipsOnImmediate : Prop :=
  ∀ (x : Reg) (kk : Byte) (s : State),
    (∀ strict, decodeWord strict (wordXKK 0x3 x kk) = .ok (.seImm x kk) ∧
      decodeWord strict (wordXKK 0x4 x kk) = .ok (.sneImm x kk)) ∧
    exec (.seImm x kk) s = .next { s with pc := if s.v[x.val] = kk then s.pc + 4 else s.pc + 2 } ∧
    exec (.sneImm x kk) s = .next { s with pc := if s.v[x.val] = kk then s.pc + 2 else s.pc + 4 }

/-- 41_skips.md R123, R124: with any low nibble when decoding is loose. -/
def Obligations.SkipsOnRegisters : Prop :=
  ∀ (x y : Reg) (s : State),
    (∀ (strict : Bool) (n : Fin 16), n = 0 ∨ strict = false →
      decodeWord strict (wordXYN 0x5 x y n) = .ok (.seReg x y) ∧
      decodeWord strict (wordXYN 0x9 x y n) = .ok (.sneReg x y)) ∧
    exec (.seReg x y) s = .next { s with pc := if s.v[x.val] = s.v[y.val] then s.pc + 4 else s.pc + 2 } ∧
    exec (.sneReg x y) s = .next { s with pc := if s.v[x.val] = s.v[y.val] then s.pc + 2 else s.pc + 4 }

/-! ## Loads and ALU -/

/-- 42_alu.md R132, R133: ADD wraps modulo 256 and never sets VF. -/
def Obligations.ImmediateLoadAndAdd : Prop :=
  ∀ (x : Reg) (kk : Byte) (s : State),
    (∀ strict, decodeWord strict (wordXKK 0x6 x kk) = .ok (.ldImm x kk) ∧
      decodeWord strict (wordXKK 0x7 x kk) = .ok (.addImm x kk)) ∧
    exec (.ldImm x kk) s = .next { s with pc := s.pc + 2, v := s.v.set x.val kk } ∧
    exec (.addImm x kk) s = .next
      { s with pc := s.pc + 2, v := s.v.set x.val (BitVec.ofNat 8 ((s.v[x.val].toNat + kk.toNat) % 256)) }

/-- 42_alu.md R134 to R137: VF is unchanged by OR, AND and XOR (the spec's decision D27). -/
def Obligations.RegisterMovesAndLogic : Prop :=
  ∀ (x y : Reg) (s : State),
    (∀ strict, decodeWord strict (wordXYN 0x8 x y 0x0) = .ok (.ldReg x y) ∧
      decodeWord strict (wordXYN 0x8 x y 0x1) = .ok (.orReg x y) ∧
      decodeWord strict (wordXYN 0x8 x y 0x2) = .ok (.andReg x y) ∧
      decodeWord strict (wordXYN 0x8 x y 0x3) = .ok (.xorReg x y)) ∧
    exec (.ldReg x y) s = .next { s with pc := s.pc + 2, v := s.v.set x.val s.v[y.val] } ∧
    exec (.orReg x y) s = .next { s with pc := s.pc + 2, v := s.v.set x.val (s.v[x.val] ||| s.v[y.val]) } ∧
    exec (.andReg x y) s = .next { s with pc := s.pc + 2, v := s.v.set x.val (s.v[x.val] &&& s.v[y.val]) } ∧
    exec (.xorReg x y) s = .next { s with pc := s.pc + 2, v := s.v.set x.val (s.v[x.val] ^^^ s.v[y.val]) }

/-- 42_alu.md R138, R131: the carry of the old operands is written to VF last. -/
def Obligations.AddSetsCarry : Prop :=
  ∀ (x y : Reg) (s : State),
    (∀ strict, decodeWord strict (wordXYN 0x8 x y 0x4) = .ok (.addReg x y)) ∧
    exec (.addReg x y) s = .next
      { s with
        pc := s.pc + 2
        v := (s.v.set x.val (BitVec.ofNat 8 ((s.v[x.val].toNat + s.v[y.val].toNat) % 256))).set 15
          (if 255 < s.v[x.val].toNat + s.v[y.val].toNat then 1 else 0) }

/-- 42_alu.md R139, R141, R131: the not-borrow of the old operands is written to VF last; equal operands give
P_SUB_EQ_FLAG. -/
def Obligations.SubtractSetsNotBorrow : Prop :=
  ∀ (x y : Reg) (s : State),
    let a := s.v[x.val].toNat
    let b := s.v[y.val].toNat
    let eq : Byte := if s.config.subEqFlag then 1 else 0
    (∀ strict, decodeWord strict (wordXYN 0x8 x y 0x5) = .ok (.subReg x y) ∧
      decodeWord strict (wordXYN 0x8 x y 0x7) = .ok (.subnReg x y)) ∧
    exec (.subReg x y) s = .next
      { s with
        pc := s.pc + 2
        v := (s.v.set x.val (BitVec.ofNat 8 ((a + 256 - b) % 256))).set 15
          (if b < a then 1 else if a = b then eq else 0) } ∧
    exec (.subnReg x y) s = .next
      { s with
        pc := s.pc + 2
        v := (s.v.set x.val (BitVec.ofNat 8 ((b + 256 - a) % 256))).set 15
          (if a < b then 1 else if b = a then eq else 0) }

/-- 42_alu.md R140, R142, R131: the bit shifted out of the source P_SHIFT_SRC names is written to VF last. -/
def Obligations.ShiftsSetTheBitShiftedOut : Prop :=
  ∀ (x y : Reg) (s : State),
    let a := (if s.config.shiftSrc = .vx then s.v[x.val] else s.v[y.val]).toNat
    (∀ strict, decodeWord strict (wordXYN 0x8 x y 0x6) = .ok (.shrReg x y) ∧
      decodeWord strict (wordXYN 0x8 x y 0xE) = .ok (.shlReg x y)) ∧
    exec (.shrReg x y) s = .next
      { s with
        pc := s.pc + 2
        v := (s.v.set x.val (BitVec.ofNat 8 (a / 2))).set 15 (BitVec.ofNat 8 (a % 2)) } ∧
    exec (.shlReg x y) s = .next
      { s with
        pc := s.pc + 2
        v := (s.v.set x.val (BitVec.ofNat 8 (2 * a % 256))).set 15 (BitVec.ofNat 8 (a / 128)) }

/-- 42_alu.md R143: the byte drawn, `Config.drawByte s.draws`, is free, and bits outside kk are 0 whatever it is.
The draw counter is the model's own field (log entry 2); its new value is not claimed. -/
def Obligations.RandomAndMask : Prop :=
  ∀ (x : Reg) (kk : Byte) (s : State),
    (∀ strict, decodeWord strict (wordXKK 0xC x kk) = .ok (.rnd x kk)) ∧
    ∃ d : Nat, exec (.rnd x kk) s = .next
        { s with pc := s.pc + 2, v := s.v.set x.val (Config.drawByte s.draws &&& kk), draws := d } ∧
      ∀ b < 8, kk.getLsbD b = false → (Config.drawByte s.draws &&& kk).getLsbD b = false

/-! ## Index register and memory -/

/-- 43_index_and_memory.md R160, R162: the full value of Vx selects the glyph (the spec's decision D15). -/
def Obligations.IndexLoads : Prop :=
  ∀ (x : Reg) (nnn : Addr12) (s : State),
    (∀ strict, decodeWord strict (wordNNN 0xA nnn) = .ok (.ldI nnn) ∧
      decodeWord strict (wordXKK 0xF x 0x29) = .ok (.ldFont x)) ∧
    exec (.ldI nnn) s = .next { s with pc := s.pc + 2, i := nnn.setWidth 16 } ∧
    exec (.ldFont x) s = .next { s with pc := s.pc + 2, i := BitVec.ofNat 16 (s.v[x.val].toNat * 5) }

/-- 43_index_and_memory.md R161: VF is unchanged, I is not masked, and a 17-bit sum faults (the spec's decision
D3). -/
def Obligations.IndexAddFaultsOnOverflow : Prop :=
  ∀ (x : Reg) (s : State),
    (∀ strict, decodeWord strict (wordXKK 0xF x 0x1E) = .ok (.addI x)) ∧
    (s.i.toNat + s.v[x.val].toNat ≤ 0xFFFF → exec (.addI x) s = .next
      { s with pc := s.pc + 2, i := BitVec.ofNat 16 (s.i.toNat + s.v[x.val].toNat) }) ∧
    (0xFFFF < s.i.toNat + s.v[x.val].toNat → exec (.addI x) s = .next
      { s with status := .faulted (.iOverflow s.i s.v[x.val] s.pc s.instrWord) })

/-- 43_index_and_memory.md R163: three digits, every other byte as before, or the fault before any write. -/
def Obligations.BcdStoresThreeDigits : Prop :=
  ∀ (x : Reg) (s : State),
    (∀ strict, decodeWord strict (wordXKK 0xF x 0x33) = .ok (.ldBcd x)) ∧
    (s.i.toNat + 2 ≤ 0xFFF → ∃ t, exec (.ldBcd x) s = .next t ∧
      t = { s with pc := s.pc + 2, mem := t.mem } ∧
      t.readByte s.i.toNat = BitVec.ofNat 8 (s.v[x.val].toNat / 100) ∧
      t.readByte (s.i.toNat + 1) = BitVec.ofNat 8 (s.v[x.val].toNat / 10 % 10) ∧
      t.readByte (s.i.toNat + 2) = BitVec.ofNat 8 (s.v[x.val].toNat % 10) ∧
      ∀ a, a < s.i.toNat ∨ s.i.toNat + 2 < a → t.readByte a = s.readByte a) ∧
    (0xFFF < s.i.toNat + 2 → exec (.ldBcd x) s = .next
      { s with status := .faulted (.memOutOfBounds (max s.i.toNat 0x1000) s.pc s.instrWord) })

/-- 43_index_and_memory.md R164: V0..Vx stored, every other byte and I as before, or the fault before any write. -/
def Obligations.StoreRegistersToMemory : Prop :=
  ∀ (x : Reg) (s : State),
    (∀ strict, decodeWord strict (wordXKK 0xF x 0x55) = .ok (.storeRegs x)) ∧
    (s.i.toNat + x.val ≤ 0xFFF → ∃ t, exec (.storeRegs x) s = .next t ∧
      t = { s with pc := s.pc + 2, mem := t.mem } ∧
      (∀ j : Reg, j ≤ x → t.readByte (s.i.toNat + j.val) = s.v[j.val]) ∧
      ∀ a, a < s.i.toNat ∨ s.i.toNat + x.val < a → t.readByte a = s.readByte a) ∧
    (0xFFF < s.i.toNat + x.val → exec (.storeRegs x) s = .next
      { s with status := .faulted (.memOutOfBounds (max s.i.toNat 0x1000) s.pc s.instrWord) })

/-- 43_index_and_memory.md R165: V0..Vx loaded, memory and I as before, or the fault before any write. -/
def Obligations.LoadRegistersFromMemory : Prop :=
  ∀ (x : Reg) (s : State),
    (∀ strict, decodeWord strict (wordXKK 0xF x 0x65) = .ok (.loadRegs x)) ∧
    (s.i.toNat + x.val ≤ 0xFFF → exec (.loadRegs x) s = .next
      { s with
        pc := s.pc + 2
        v := Vector.ofFn fun j : Fin 16 =>
          if j ≤ x then s.readByte (s.i.toNat + j.val) else s.v[j.val] }) ∧
    (0xFFF < s.i.toNat + x.val → exec (.loadRegs x) s = .next
      { s with status := .faulted (.memOutOfBounds (max s.i.toNat 0x1000) s.pc s.instrWord) })

/-- The round trip of 43_index_and_memory.md R165 and 95_test_vectors.md W5: a load from the same I and the same
memory restores the registers that were stored, whatever the registers hold by then. -/
def Obligations.StoreThenLoadRestores : Prop :=
  ∀ (x : Reg) (s t u : State), s.i.toNat + x.val ≤ 0xFFF → exec (.storeRegs x) s = .next t →
    u.i = s.i → (∀ a, u.readByte a = t.readByte a) →
    ∃ r, exec (.loadRegs x) u = .next r ∧ r.i = s.i ∧ (∀ j : Reg, j ≤ x → r.v[j.val] = s.v[j.val]) ∧
      ∀ j : Reg, x < j → r.v[j.val] = u.v[j.val]

/-! ## Display -/

/-- 44_display.md R184. -/
def Obligations.ClearScreen : Prop :=
  ∀ s : State,
    decodeWord true 0x00E0 = .ok .cls ∧ (∀ x : Reg, decodeWord false (wordXKK 0x0 x 0xE0) = .ok .cls) ∧
    ∃ t, exec .cls s = .next t ∧ t = { s with pc := s.pc + 2, fb := t.fb } ∧
      ∀ (row : Fin 32) (col : Fin 64), t.fb[row.val][col.val] = false

/-- 44_display.md R181 to R183, R185: each pixel is XORed with the sprite bit that falls on it, both coordinates
wrapping on their own; VF is 1 exactly when a pixel went from 1 to 0; a byte outside memory faults before any pixel
changes. -/
def Obligations.DrawXorsWrapsAndReportsCollision : Prop :=
  ∀ (x y : Reg) (n : Fin 16) (s : State),
    (∀ strict, decodeWord strict (wordXYN 0xD x y n) = .ok (.drw x y n)) ∧
    (n.val = 0 ∨ s.i.toNat + n.val ≤ 0x1000 → ∃ t, exec (.drw x y n) s = .next t ∧
      t = { s with pc := s.pc + 2, fb := t.fb, v := s.v.set 15 t.v[15] } ∧
      (∀ (row : Fin 32) (col : Fin 64),
        t.fb[row.val][col.val] = true ↔ ¬(s.fb[row.val][col.val] = true ↔
          ∃ r < n.val, ∃ b < 8, row.val = (s.v[y.val].toNat + r) % 32 ∧
            col.val = (s.v[x.val].toNat + b) % 64 ∧
            (s.readByte (s.i.toNat + r)).getLsbD (7 - b) = true)) ∧
      t.v[15] = if ∃ (row : Fin 32) (col : Fin 64),
        s.fb[row.val][col.val] = true ∧ t.fb[row.val][col.val] = false then 1 else 0) ∧
    (n.val ≠ 0 → 0x1000 < s.i.toNat + n.val → exec (.drw x y n) s = .next
      { s with status := .faulted (.memOutOfBounds (max s.i.toNat 0x1000) s.pc s.instrWord) })

/-- 44_display.md R185, R186, 95_test_vectors.md W7: the same sprite drawn twice at the same place restores the
framebuffer, and the second draw reports a collision exactly when the first set a pixel. A first draw that changes a
coordinate register (x or y is F and VF changes) is not the same place and is left out. -/
def Obligations.DrawingTwiceRestores : Prop :=
  ∀ (x y : Reg) (n : Fin 16) (s t u : State), n.val = 0 ∨ s.i.toNat + n.val ≤ 0x1000 →
    exec (.drw x y n) s = .next t → t.v[x.val] = s.v[x.val] → t.v[y.val] = s.v[y.val] →
    exec (.drw x y n) t = .next u →
    u.fb = s.fb ∧ (u.v[15] = 1 ↔ ∃ (row : Fin 32) (col : Fin 64),
      s.fb[row.val][col.val] = false ∧ t.fb[row.val][col.val] = true)

/-! ## Keypad and timers -/

/-- 45_keypad_and_timers.md R200 to R202 (the fault is the spec's decision D13). -/
def Obligations.SkipsOnKeys : Prop :=
  ∀ (x : Reg) (s : State),
    (∀ strict, decodeWord strict (wordXKK 0xE x 0x9E) = .ok (.skp x) ∧
      decodeWord strict (wordXKK 0xE x 0xA1) = .ok (.sknp x)) ∧
    (∀ h : s.v[x.val].toNat < 16,
      exec (.skp x) s = .next { s with pc := if s.keys[s.v[x.val].toNat] then s.pc + 4 else s.pc + 2 } ∧
      exec (.sknp x) s = .next { s with pc := if s.keys[s.v[x.val].toNat] then s.pc + 2 else s.pc + 4 }) ∧
    (15 < s.v[x.val].toNat →
      exec (.skp x) s = .next { s with status := .faulted (.keyOutOfRange s.v[x.val] s.pc s.instrWord) } ∧
      exec (.sknp x) s = .next { s with status := .faulted (.keyOutOfRange s.v[x.val] s.pc s.instrWord) })

/-- 45_keypad_and_timers.md R203: a waiting cycle changes nothing; otherwise Vx is the highest (or, by
P_KEYWAIT_PICK, the lowest) key down. -/
def Obligations.KeyWaitTakesAKeyDown : Prop :=
  ∀ (x : Reg) (s : State),
    (∀ strict, decodeWord strict (wordXKK 0xF x 0x0A) = .ok (.ldVxKey x)) ∧
    ((∀ k : Fin 16, s.keys[k.val] = false) → exec (.ldVxKey x) s = .next s) ∧
    ∀ k : Fin 16, s.keys[k.val] = true →
      (∀ j : Fin 16, s.keys[j.val] = true → if s.config.keyWaitPick = .highest then j ≤ k else k ≤ j) →
      exec (.ldVxKey x) s = .next { s with pc := s.pc + 2, v := s.v.set x.val (BitVec.ofNat 8 k.val) }

/-- 45_keypad_and_timers.md R203, 95_test_vectors.md W10: cycles on Fx0A with no key down change nothing, however
many; the first cycle after a key goes down completes. -/
def Obligations.KeyWaitSpinsUntilAKey : Prop :=
  ∀ (s : State) (x : Reg), s.Running → s.CanFetch →
    decodeWord s.config.strictDecode s.instrWord = .ok (.ldVxKey x) →
    (∀ k : Fin 16, s.keys[k.val] = false) →
    (∀ n : Nat, runEvents (List.replicate n .cycle) s = .next s) ∧
    ∀ k : Fin 16, runEvents [.keyDown k.val, .cycle] s = .next
      { s with keys := s.keys.set k.val true, pc := s.pc + 2, v := s.v.set x.val (BitVec.ofNat 8 k.val) }

/-- 45_keypad_and_timers.md R204 to R206. -/
def Obligations.TimerTransfers : Prop :=
  ∀ (x : Reg) (s : State),
    (∀ strict, decodeWord strict (wordXKK 0xF x 0x07) = .ok (.ldVxDt x) ∧
      decodeWord strict (wordXKK 0xF x 0x15) = .ok (.ldDtVx x) ∧
      decodeWord strict (wordXKK 0xF x 0x18) = .ok (.ldStVx x)) ∧
    exec (.ldVxDt x) s = .next { s with pc := s.pc + 2, v := s.v.set x.val s.dt } ∧
    exec (.ldDtVx x) s = .next { s with pc := s.pc + 2, dt := s.v[x.val] } ∧
    exec (.ldStVx x) s = .next { s with pc := s.pc + 2, st := s.v[x.val] }

/-! ## Host events -/

/-- 60_exceptions.md R230, R231. -/
def Obligations.TickCountsBothTimersDown : Prop :=
  ∀ s : State, s.Running →
    applyEvent .tick s = .next
      { s with dt := BitVec.ofNat 8 (s.dt.toNat - 1), st := BitVec.ofNat 8 (s.st.toNat - 1) } ∧
    (s.soundActive = true ↔ s.st ≠ 0)

/-- 60_exceptions.md R233: last write wins; an index above 15 has no move. -/
def Obligations.KeyEventsSetOneKey : Prop :=
  ∀ (s : State) (k : Nat), s.Running →
    (∀ h : k < 16,
      applyEvent (.keyDown k) s = .next { s with keys := s.keys.set k true } ∧
      applyEvent (.keyUp k) s = .next { s with keys := s.keys.set k false } ∧
      runEvents [.keyDown k, .keyUp k] s = .next { s with keys := s.keys.set k false } ∧
      runEvents [.keyUp k, .keyDown k] s = .next { s with keys := s.keys.set k true }) ∧
    (15 < k → ∀ t, applyEvent (.keyDown k) s ≠ .next t ∧ applyEvent (.keyUp k) s ≠ .next t)

/-- 60_exceptions.md R232: an oversize ROM is rejected before any byte is written; otherwise exactly its bytes
change. -/
def Obligations.RomLoadCopiesOrRejects : Prop :=
  ∀ (s : State) (bytes : List Byte), s.Running →
    (bytes.length ≤ 3584 → loadResult bytes s = .loaded ∧
      ∃ t, applyEvent (.loadRom bytes) s = .next t ∧ t = { s with mem := t.mem } ∧
        ∀ a, t.readByte a =
          if h : 0x200 ≤ a ∧ a < 0x200 + bytes.length then bytes[a - 0x200] else s.readByte a) ∧
    (3584 < bytes.length → loadResult bytes s = .romTooLarge bytes.length ∧
      applyEvent (.loadRom bytes) s = .next s)

/-- 60_exceptions.md R234. -/
def Obligations.FramebufferReadChangesNothing : Prop :=
  ∀ s : State, applyEvent .readFramebuffer s = .next s ∧ s.snapshot = s.fb

/-- Host events other than cycles raise no fault, an oversize ROM among them (60_exceptions.md R230 to R235). -/
def Obligations.OnlyCyclesRaiseFaults : Prop :=
  ∀ (events : List Event) (s : State), s.Running →
    (∀ e ∈ events, e ≠ .cycle ∧ ∀ k, e = .keyDown k ∨ e = .keyUp k → k ≤ 15) → SafeRun events s

/-! ## Whole-machine frames -/

/-- No V register changes but the named destination, VF for the flag instructions, and V0..Vx for Fx65
(10_state.md R21, R22). -/
def Obligations.OnlyNamedRegistersChange : Prop :=
  ∀ (i : Instr) (s t : State) (j : Reg), exec i s = .next t → ¬WritesV i j → t.v[j.val] = s.v[j.val]

/-- 20_memory.md R61: memory changes only by Fx33 and Fx55, and only in the bytes from the address in I. -/
def Obligations.OnlyStoresChangeMemory : Prop :=
  ∀ (i : Instr) (s t : State) (a : Nat), exec i s = .next t →
    ¬(s.i.toNat ≤ a ∧ a < s.i.toNat + StoredLength i) → t.readByte a = s.readByte a

/-- I changes only by Annn, Fx1E and Fx29; SP only by 2nnn and 00EE; a stack slot only by a 2nnn with SP at it; DT
only by Fx15; ST only by Fx18 (10_state.md R23, R25 to R28). -/
def Obligations.OnlyNamedSpecialRegistersChange : Prop :=
  ∀ (i : Instr) (s t : State), exec i s = .next t →
    (t.i = s.i ∨ (∃ nnn, i = .ldI nnn) ∨ ∃ x, i = .addI x ∨ i = .ldFont x) ∧
    (t.sp = s.sp ∨ (∃ nnn, i = .call nnn ∧ t.sp.val = s.sp.val + 1) ∨ (i = .ret ∧ s.sp.val = t.sp.val + 1)) ∧
    (∀ j : Fin 16, t.stack[j.val] = s.stack[j.val] ∨ ∃ nnn, i = .call nnn ∧ j.val = s.sp.val) ∧
    (t.dt = s.dt ∨ ∃ x, i = .ldDtVx x) ∧ (t.st = s.st ∨ ∃ x, i = .ldStVx x)

/-- The framebuffer changes only by CLS and DRW, the keypad by no instruction, the run status only by raising a
fault (10_state.md R30 to R32; 44_display.md R180); no instruction changes the model's parameters, and only RND
draws a byte (log entries 1 and 2). -/
def Obligations.OnlyNamedDevicesChange : Prop :=
  ∀ (i : Instr) (s t : State), exec i s = .next t →
    (t.fb = s.fb ∨ i = .cls ∨ ∃ x y n, i = .drw x y n) ∧ t.keys = s.keys ∧
    (t.status = s.status ∨ ∃ f, t = { s with status := .faulted f }) ∧ t.config = s.config ∧
    (t.draws = s.draws ∨ ∃ x kk, i = .rnd x kk)

/-- 10_state.md R28: no instruction reads ST. Two states that differ only in ST go to states that differ only in
ST. For RND both are assumed to draw the same byte: that is log entry 2 (DESIGN CHOICE, unsafe for a claim that
compares two runs). -/
def Obligations.SoundTimerIsNeverRead : Prop :=
  ∀ (i : Instr) (s t : State) (b : Byte), exec i s = .next t →
    exec i { s with st := b } = .next { t with st := if ∃ x, i = .ldStVx x then t.st else b }

/-- 10_state.md R26: no instruction reads a stack slot at or above SP. Whatever such a slot holds, everything but
the slots at or above SP comes out the same. For RND both runs are assumed to draw the same byte: that is log entry 2
(DESIGN CHOICE, unsafe for a claim that compares two runs). -/
def Obligations.FreeStackSlotsAreNeverRead : Prop :=
  ∀ (i : Instr) (s t : State) (k : Vector Word 16), exec i s = .next t →
    (∀ j : Fin 16, j.val < s.sp.val → k[j.val] = s.stack[j.val]) →
    ∃ k' : Vector Word 16, exec i { s with stack := k } = .next { t with stack := k' } ∧
      ∀ j : Fin 16, j.val < t.sp.val → k'[j.val] = t.stack[j.val]

/-! ## Sequences of host events -/

/-- 60_exceptions.md R235: any finite or infinite sequence of host events, in any order, has a run. The run of an
infinite sequence is a trace of states, each following from the one before by its event, and every state of it is
sound if the first is. The events are those with key indices up to 15 (log entry 5), host calls are events between
cycles (log entry 4), and a fault and a Faulted core have next states (log entry 3): the model's choices. -/
def Obligations.EveryEventSequenceHasARun : Prop :=
  (∀ (events : List Event) (s : State), (∀ e ∈ events, e.admitted = true) → ∃ t, runEvents events s = .next t) ∧
  ∀ (events : Nat → Event) (s : State), (∀ n, (events n).admitted = true) →
    ∃ trace : Nat → State, trace 0 = s ∧
      (∀ n, applyEvent (events n) (trace n) = .next (trace (n + 1))) ∧
      (∀ n, runStream events s n = .next (trace n)) ∧ (s.Inv → ∀ n, (trace n).Inv)
end

