-- ==== Sys2Proof/Laws/Decode.lean ====
section
/-! SUPPORT. The fields of a word built by the encoder, and the bytes of a word. -/

namespace Sys2Proof

theorem toNat_append_eq {n m : Nat} (a : BitVec n) (b : BitVec m) :
    (a ++ b).toNat = a.toNat * 2 ^ m + b.toNat := by
  rw [BitVec.toNat_append, ← Nat.shiftLeft_add_eq_or_of_lt b.isLt, Nat.shiftLeft_eq]

section fields

variable (op : BitVec 4) (x y n : Fin 16) (kk : Byte) (nnn : Addr12)

theorem toNat_wordXYN :
    (wordXYN op x y n).toNat = op.toNat * 4096 + x.val * 256 + y.val * 16 + n.val := by
  simp only [wordXYN, toNat_append_eq, BitVec.toNat_ofFin]; omega

theorem toNat_wordXKK : (wordXKK op x kk).toNat = op.toNat * 4096 + x.val * 256 + kk.toNat := by
  simp only [wordXKK, toNat_append_eq, BitVec.toNat_ofFin]; omega

theorem toNat_wordNNN : (wordNNN op nnn).toNat = op.toNat * 4096 + nnn.toNat := by
  simp only [wordNNN, toNat_append_eq]; omega

variable (w : Word)

theorem opField_eq : opField w = w.toNat / 4096 := by
  simp [opField, BitVec.extractLsb'_toNat, Nat.shiftRight_eq_div_pow]; omega

theorem xField_val : (xField w).val = w.toNat / 256 % 16 := by
  simp [xField, Nat.shiftRight_eq_div_pow]

theorem yField_val : (yField w).val = w.toNat / 16 % 16 := by
  simp [yField, Nat.shiftRight_eq_div_pow]

theorem nField_val : (nField w).val = w.toNat % 16 := by
  simp [nField]

theorem kkField_toNat : (kkField w).toNat = w.toNat % 256 := by
  simp [kkField, BitVec.extractLsb'_toNat]

theorem nnnField_toNat : (nnnField w).toNat = w.toNat % 4096 := by
  simp [nnnField, BitVec.extractLsb'_toNat]

@[simp] theorem opField_wordXYN : opField (wordXYN op x y n) = op.toNat := by
  rw [opField_eq, toNat_wordXYN]; omega
@[simp] theorem xField_wordXYN : xField (wordXYN op x y n) = x := by
  apply Fin.ext; rw [xField_val, toNat_wordXYN]; omega
@[simp] theorem yField_wordXYN : yField (wordXYN op x y n) = y := by
  apply Fin.ext; rw [yField_val, toNat_wordXYN]; omega
@[simp] theorem nField_wordXYN : nField (wordXYN op x y n) = n := by
  apply Fin.ext; rw [nField_val, toNat_wordXYN]; omega

@[simp] theorem opField_wordXKK : opField (wordXKK op x kk) = op.toNat := by
  rw [opField_eq, toNat_wordXKK]; omega
@[simp] theorem xField_wordXKK : xField (wordXKK op x kk) = x := by
  apply Fin.ext; rw [xField_val, toNat_wordXKK]; omega
@[simp] theorem kkField_wordXKK : kkField (wordXKK op x kk) = kk := by
  apply BitVec.eq_of_toNat_eq; rw [kkField_toNat, toNat_wordXKK]; omega

@[simp] theorem opField_wordNNN : opField (wordNNN op nnn) = op.toNat := by
  rw [opField_eq, toNat_wordNNN]; omega
@[simp] theorem nnnField_wordNNN : nnnField (wordNNN op nnn) = nnn := by
  apply BitVec.eq_of_toNat_eq; rw [nnnField_toNat, toNat_wordNNN]; omega

/-- A word is its fields in the format op, x, y, n. -/
theorem eq_wordXYN : w = wordXYN (BitVec.ofNat 4 (opField w)) (xField w) (yField w) (nField w) := by
  apply BitVec.eq_of_toNat_eq
  rw [toNat_wordXYN, xField_val, yField_val, nField_val, opField_eq, BitVec.toNat_ofNat]
  omega

theorem eq_wordXKK : w = wordXKK (BitVec.ofNat 4 (opField w)) (xField w) (kkField w) := by
  apply BitVec.eq_of_toNat_eq
  rw [toNat_wordXKK, xField_val, kkField_toNat, opField_eq, BitVec.toNat_ofNat]
  omega

theorem eq_wordNNN : w = wordNNN (BitVec.ofNat 4 (opField w)) (nnnField w) := by
  apply BitVec.eq_of_toNat_eq
  rw [toNat_wordNNN, nnnField_toNat, opField_eq, BitVec.toNat_ofNat]
  omega

/-- The two bytes of a word, high first, form it again (20_memory.md R53). -/
@[simp] theorem wordOfBytes_high_low : wordOfBytes (highByte w) (lowByte w) = w := by
  apply BitVec.eq_of_toNat_eq
  simp only [wordOfBytes, highByte, lowByte, toNat_append_eq, BitVec.extractLsb'_toNat,
    Nat.shiftRight_eq_div_pow]
  omega

/-! Masking a word with the masks of the opcode table keeps exactly its fixed nibbles (30_encoding.md R73). -/

theorem wordXYN_and_F00F : wordXYN op x y n &&& 0xF00F = wordXYN op 0 0 n := by
  have h : (0xF00F : Word) = (15#4 ++ 0#4 ++ 0#4 ++ 15#4 : BitVec (4 + 4 + 4 + 4)) := by decide
  rw [h, wordXYN, wordXYN, BitVec.and_append, BitVec.and_append, BitVec.and_append]
  congr 1
  · congr 1
    · congr 1
      · exact BitVec.and_allOnes
      · exact BitVec.and_zero
    · exact BitVec.and_zero
  · exact BitVec.and_allOnes

theorem wordXKK_and_F0FF : wordXKK op x kk &&& 0xF0FF = wordXKK op 0 kk := by
  have h : (0xF0FF : Word) = (15#4 ++ 0#4 ++ 255#8 : BitVec (4 + 4 + 8)) := by decide
  rw [h, wordXKK, wordXKK, BitVec.and_append, BitVec.and_append]
  congr 1
  · congr 1
    · exact BitVec.and_allOnes
    · exact BitVec.and_zero
  · exact BitVec.and_allOnes

theorem wordNNN_and_F000 : wordNNN op nnn &&& 0xF000 = wordNNN op 0 := by
  have h : (0xF000 : Word) = (15#4 ++ 0#12 : BitVec (4 + 12)) := by decide
  rw [h, wordNNN, wordNNN, BitVec.and_append]
  congr 1
  · exact BitVec.and_allOnes
  · exact BitVec.and_zero

theorem word_and_F000 (w : Word) : w &&& 0xF000 = wordNNN (BitVec.ofNat 4 (opField w)) 0 := by
  conv_lhs => rw [eq_wordNNN w]
  exact wordNNN_and_F000 _ _

theorem word_and_F00F (w : Word) :
    w &&& 0xF00F = wordXYN (BitVec.ofNat 4 (opField w)) 0 0 (nField w) := by
  conv_lhs => rw [eq_wordXYN w]
  exact wordXYN_and_F00F _ _ _ _

theorem word_and_F0FF (w : Word) : w &&& 0xF0FF = wordXKK (BitVec.ofNat 4 (opField w)) 0 (kkField w) := by
  conv_lhs => rw [eq_wordXKK w]
  exact wordXKK_and_F0FF _ _ _

end fields

end Sys2Proof
end

