-- ==== Sys2Proof/Laws/State.lean ====
section
/-! SUPPORT. One lemma per field and update of the state, so that no proof unfolds a record update. -/

namespace Sys2Proof.Machine

section setV

variable (s : State) (x : Reg) (b : Byte)

@[simp] theorem State.setV_mem : (s.setV x b).mem = s.mem := rfl
@[simp] theorem State.setV_v : (s.setV x b).v = s.v.set x.val b := rfl
@[simp] theorem State.setV_i : (s.setV x b).i = s.i := rfl
@[simp] theorem State.setV_pc : (s.setV x b).pc = s.pc := rfl
@[simp] theorem State.setV_sp : (s.setV x b).sp = s.sp := rfl
@[simp] theorem State.setV_stack : (s.setV x b).stack = s.stack := rfl
@[simp] theorem State.setV_dt : (s.setV x b).dt = s.dt := rfl
@[simp] theorem State.setV_st : (s.setV x b).st = s.st := rfl
@[simp] theorem State.setV_fb : (s.setV x b).fb = s.fb := rfl
@[simp] theorem State.setV_keys : (s.setV x b).keys = s.keys := rfl
@[simp] theorem State.setV_status : (s.setV x b).status = s.status := rfl
@[simp] theorem State.setV_config : (s.setV x b).config = s.config := rfl
@[simp] theorem State.setV_draws : (s.setV x b).draws = s.draws := rfl

end setV

section advance

variable (s : State)

@[simp] theorem State.advance_mem : (s.advance).mem = s.mem := rfl
@[simp] theorem State.advance_v : (s.advance).v = s.v := rfl
@[simp] theorem State.advance_i : (s.advance).i = s.i := rfl
@[simp] theorem State.advance_pc : (s.advance).pc = s.pc + 2 := rfl
@[simp] theorem State.advance_sp : (s.advance).sp = s.sp := rfl
@[simp] theorem State.advance_stack : (s.advance).stack = s.stack := rfl
@[simp] theorem State.advance_dt : (s.advance).dt = s.dt := rfl
@[simp] theorem State.advance_st : (s.advance).st = s.st := rfl
@[simp] theorem State.advance_fb : (s.advance).fb = s.fb := rfl
@[simp] theorem State.advance_keys : (s.advance).keys = s.keys := rfl
@[simp] theorem State.advance_status : (s.advance).status = s.status := rfl
@[simp] theorem State.advance_config : (s.advance).config = s.config := rfl
@[simp] theorem State.advance_draws : (s.advance).draws = s.draws := rfl

end advance

section jump

variable (s : State) (w : Word)

@[simp] theorem State.jump_mem : (s.jump w).mem = s.mem := rfl
@[simp] theorem State.jump_v : (s.jump w).v = s.v := rfl
@[simp] theorem State.jump_i : (s.jump w).i = s.i := rfl
@[simp] theorem State.jump_pc : (s.jump w).pc = w := rfl
@[simp] theorem State.jump_sp : (s.jump w).sp = s.sp := rfl
@[simp] theorem State.jump_stack : (s.jump w).stack = s.stack := rfl
@[simp] theorem State.jump_dt : (s.jump w).dt = s.dt := rfl
@[simp] theorem State.jump_st : (s.jump w).st = s.st := rfl
@[simp] theorem State.jump_fb : (s.jump w).fb = s.fb := rfl
@[simp] theorem State.jump_keys : (s.jump w).keys = s.keys := rfl
@[simp] theorem State.jump_status : (s.jump w).status = s.status := rfl
@[simp] theorem State.jump_config : (s.jump w).config = s.config := rfl
@[simp] theorem State.jump_draws : (s.jump w).draws = s.draws := rfl

end jump

section setI

variable (s : State) (w : Word)

@[simp] theorem State.setI_mem : (s.setI w).mem = s.mem := rfl
@[simp] theorem State.setI_v : (s.setI w).v = s.v := rfl
@[simp] theorem State.setI_i : (s.setI w).i = w := rfl
@[simp] theorem State.setI_pc : (s.setI w).pc = s.pc := rfl
@[simp] theorem State.setI_sp : (s.setI w).sp = s.sp := rfl
@[simp] theorem State.setI_stack : (s.setI w).stack = s.stack := rfl
@[simp] theorem State.setI_dt : (s.setI w).dt = s.dt := rfl
@[simp] theorem State.setI_st : (s.setI w).st = s.st := rfl
@[simp] theorem State.setI_fb : (s.setI w).fb = s.fb := rfl
@[simp] theorem State.setI_keys : (s.setI w).keys = s.keys := rfl
@[simp] theorem State.setI_status : (s.setI w).status = s.status := rfl
@[simp] theorem State.setI_config : (s.setI w).config = s.config := rfl
@[simp] theorem State.setI_draws : (s.setI w).draws = s.draws := rfl

end setI

section raise

variable (s : State) (f : Fault)

@[simp] theorem State.raise_mem : (s.raise f).mem = s.mem := rfl
@[simp] theorem State.raise_v : (s.raise f).v = s.v := rfl
@[simp] theorem State.raise_i : (s.raise f).i = s.i := rfl
@[simp] theorem State.raise_pc : (s.raise f).pc = s.pc := rfl
@[simp] theorem State.raise_sp : (s.raise f).sp = s.sp := rfl
@[simp] theorem State.raise_stack : (s.raise f).stack = s.stack := rfl
@[simp] theorem State.raise_dt : (s.raise f).dt = s.dt := rfl
@[simp] theorem State.raise_st : (s.raise f).st = s.st := rfl
@[simp] theorem State.raise_fb : (s.raise f).fb = s.fb := rfl
@[simp] theorem State.raise_keys : (s.raise f).keys = s.keys := rfl
@[simp] theorem State.raise_status : (s.raise f).status = .faulted f := rfl
@[simp] theorem State.raise_config : (s.raise f).config = s.config := rfl
@[simp] theorem State.raise_draws : (s.raise f).draws = s.draws := rfl

end raise

section writeBytes

variable (s : State) (a : Nat) (bs : List Byte)

@[simp] theorem State.writeBytes_mem : (s.writeBytes a bs).mem = s.mem.writeBytes s.config.font a bs := rfl
@[simp] theorem State.writeBytes_v : (s.writeBytes a bs).v = s.v := rfl
@[simp] theorem State.writeBytes_i : (s.writeBytes a bs).i = s.i := rfl
@[simp] theorem State.writeBytes_pc : (s.writeBytes a bs).pc = s.pc := rfl
@[simp] theorem State.writeBytes_sp : (s.writeBytes a bs).sp = s.sp := rfl
@[simp] theorem State.writeBytes_stack : (s.writeBytes a bs).stack = s.stack := rfl
@[simp] theorem State.writeBytes_dt : (s.writeBytes a bs).dt = s.dt := rfl
@[simp] theorem State.writeBytes_st : (s.writeBytes a bs).st = s.st := rfl
@[simp] theorem State.writeBytes_fb : (s.writeBytes a bs).fb = s.fb := rfl
@[simp] theorem State.writeBytes_keys : (s.writeBytes a bs).keys = s.keys := rfl
@[simp] theorem State.writeBytes_status : (s.writeBytes a bs).status = s.status := rfl
@[simp] theorem State.writeBytes_config : (s.writeBytes a bs).config = s.config := rfl
@[simp] theorem State.writeBytes_draws : (s.writeBytes a bs).draws = s.draws := rfl

end writeBytes

section setResultThenFlag

variable (s : State) (x : Reg) (b : Byte) (c : Bool)

@[simp] theorem State.setResultThenFlag_mem : (s.setResultThenFlag x b c).mem = s.mem := rfl
@[simp] theorem State.setResultThenFlag_v : (s.setResultThenFlag x b c).v = (s.v.set x.val b).set VF.val (flagByte c) := rfl
@[simp] theorem State.setResultThenFlag_i : (s.setResultThenFlag x b c).i = s.i := rfl
@[simp] theorem State.setResultThenFlag_pc : (s.setResultThenFlag x b c).pc = s.pc := rfl
@[simp] theorem State.setResultThenFlag_sp : (s.setResultThenFlag x b c).sp = s.sp := rfl
@[simp] theorem State.setResultThenFlag_stack : (s.setResultThenFlag x b c).stack = s.stack := rfl
@[simp] theorem State.setResultThenFlag_dt : (s.setResultThenFlag x b c).dt = s.dt := rfl
@[simp] theorem State.setResultThenFlag_st : (s.setResultThenFlag x b c).st = s.st := rfl
@[simp] theorem State.setResultThenFlag_fb : (s.setResultThenFlag x b c).fb = s.fb := rfl
@[simp] theorem State.setResultThenFlag_keys : (s.setResultThenFlag x b c).keys = s.keys := rfl
@[simp] theorem State.setResultThenFlag_status : (s.setResultThenFlag x b c).status = s.status := rfl
@[simp] theorem State.setResultThenFlag_config : (s.setResultThenFlag x b c).config = s.config := rfl
@[simp] theorem State.setResultThenFlag_draws : (s.setResultThenFlag x b c).draws = s.draws := rfl

end setResultThenFlag

section randomAnd

variable (s : State) (r : Byte) (x : Reg) (kk : Byte)

@[simp] theorem State.randomAnd_mem : (s.randomAnd r x kk).mem = s.mem := rfl
@[simp] theorem State.randomAnd_v : (s.randomAnd r x kk).v = s.v.set x.val (r &&& kk) := rfl
@[simp] theorem State.randomAnd_i : (s.randomAnd r x kk).i = s.i := rfl
@[simp] theorem State.randomAnd_pc : (s.randomAnd r x kk).pc = s.pc := rfl
@[simp] theorem State.randomAnd_sp : (s.randomAnd r x kk).sp = s.sp := rfl
@[simp] theorem State.randomAnd_stack : (s.randomAnd r x kk).stack = s.stack := rfl
@[simp] theorem State.randomAnd_dt : (s.randomAnd r x kk).dt = s.dt := rfl
@[simp] theorem State.randomAnd_st : (s.randomAnd r x kk).st = s.st := rfl
@[simp] theorem State.randomAnd_fb : (s.randomAnd r x kk).fb = s.fb := rfl
@[simp] theorem State.randomAnd_keys : (s.randomAnd r x kk).keys = s.keys := rfl
@[simp] theorem State.randomAnd_status : (s.randomAnd r x kk).status = s.status := rfl
@[simp] theorem State.randomAnd_config : (s.randomAnd r x kk).config = s.config := rfl
@[simp] theorem State.randomAnd_draws : (s.randomAnd r x kk).draws = s.draws + 1 := rfl

end randomAnd

section tick

variable (s : State)

@[simp] theorem State.tick_mem : (s.tick).mem = s.mem := rfl
@[simp] theorem State.tick_v : (s.tick).v = s.v := rfl
@[simp] theorem State.tick_i : (s.tick).i = s.i := rfl
@[simp] theorem State.tick_pc : (s.tick).pc = s.pc := rfl
@[simp] theorem State.tick_sp : (s.tick).sp = s.sp := rfl
@[simp] theorem State.tick_stack : (s.tick).stack = s.stack := rfl
@[simp] theorem State.tick_dt : (s.tick).dt = countDown s.dt := rfl
@[simp] theorem State.tick_st : (s.tick).st = countDown s.st := rfl
@[simp] theorem State.tick_fb : (s.tick).fb = s.fb := rfl
@[simp] theorem State.tick_keys : (s.tick).keys = s.keys := rfl
@[simp] theorem State.tick_status : (s.tick).status = s.status := rfl
@[simp] theorem State.tick_config : (s.tick).config = s.config := rfl
@[simp] theorem State.tick_draws : (s.tick).draws = s.draws := rfl

end tick

section skipIf

variable (s : State) (c : Bool)

@[simp] theorem State.skipIf_mem : (s.skipIf c).mem = s.mem := by cases c <;> rfl
@[simp] theorem State.skipIf_v : (s.skipIf c).v = s.v := by cases c <;> rfl
@[simp] theorem State.skipIf_i : (s.skipIf c).i = s.i := by cases c <;> rfl
@[simp] theorem State.skipIf_pc : (s.skipIf c).pc = if c then s.pc + 2 else s.pc := by cases c <;> rfl
@[simp] theorem State.skipIf_sp : (s.skipIf c).sp = s.sp := by cases c <;> rfl
@[simp] theorem State.skipIf_stack : (s.skipIf c).stack = s.stack := by cases c <;> rfl
@[simp] theorem State.skipIf_dt : (s.skipIf c).dt = s.dt := by cases c <;> rfl
@[simp] theorem State.skipIf_st : (s.skipIf c).st = s.st := by cases c <;> rfl
@[simp] theorem State.skipIf_fb : (s.skipIf c).fb = s.fb := by cases c <;> rfl
@[simp] theorem State.skipIf_keys : (s.skipIf c).keys = s.keys := by cases c <;> rfl
@[simp] theorem State.skipIf_status : (s.skipIf c).status = s.status := by cases c <;> rfl
@[simp] theorem State.skipIf_config : (s.skipIf c).config = s.config := by cases c <;> rfl
@[simp] theorem State.skipIf_draws : (s.skipIf c).draws = s.draws := by cases c <;> rfl

end skipIf

end Sys2Proof.Machine
end

