-- ==== Sys2Proof/Laws/Memory.lean ====
section
/-! SUPPORT. Memory: a read after a write, and the canonical form is kept (20_memory.md R50, R60 to R63). -/

namespace Sys2Proof.Machine

variable (font : Font)

@[simp] theorem Memory.read_nil (a : Nat) : Memory.read font [] a = resetByte font a := rfl

theorem Memory.read_erase_same (m : Memory) (a : Nat) : (m.erase a).read font a = resetByte font a := by
  induction m with
  | nil => rfl
  | cons c rest ih =>
    by_cases h : c.1 = a <;> simp_all [Memory.erase, Memory.read]

theorem Memory.read_erase_other (m : Memory) {a b : Nat} (h : b ≠ a) :
    (m.erase a).read font b = m.read font b := by
  induction m with
  | nil => rfl
  | cons c rest ih =>
    by_cases hc : c.1 = a
    · have : c.1 ≠ b := by omega
      simp_all [Memory.erase, Memory.read]
    · by_cases hb : c.1 = b <;> simp_all [Memory.erase, Memory.read]

theorem Memory.read_insert_same (m : Memory) (a : Nat) (v : Byte) (h : ∀ c ∈ m, c.1 ≠ a) :
    (m.insert a v).read font a = v := by
  induction m with
  | nil => simp [Memory.insert, Memory.read]
  | cons c rest ih =>
    have hc : c.1 ≠ a := h c (by simp)
    have := ih fun d hd => h d (by simp [hd])
    unfold Memory.insert
    split <;> simp_all [Memory.read]

theorem Memory.read_insert_other (m : Memory) {a b : Nat} (v : Byte) (h : b ≠ a) :
    (m.insert a v).read font b = m.read font b := by
  induction m with
  | nil => simp [Memory.insert, Memory.read, h.symm]
  | cons c rest ih =>
    unfold Memory.insert
    split <;> simp_all [Memory.read, h.symm]

theorem Memory.erase_no_address (m : Memory) (a : Nat) : ∀ c ∈ m.erase a, c.1 ≠ a := by
  simp [Memory.erase]

/-- A read after a write gives the byte written at its address, and at every other address what it gave before. -/
theorem Memory.read_write (m : Memory) (a b : Nat) (v : Byte) :
    (m.write font a v).read font b = if b = a then v else m.read font b := by
  unfold Memory.write
  by_cases hb : b = a
  · subst hb
    split
    · simp_all [Memory.read_erase_same]
    · simp [Memory.read_insert_same font _ b v (Memory.erase_no_address m b)]
  · split <;> simp [hb, Memory.read_insert_other, Memory.read_erase_other]

/-- A byte sequence written from `a` is read back at its addresses, and every other address reads as before. -/
theorem Memory.read_writeBytes (m : Memory) (a b : Nat) (bs : List Byte) :
    (m.writeBytes font a bs).read font b =
      if h : a ≤ b ∧ b < a + bs.length then bs[b - a] else m.read font b := by
  induction bs generalizing m a with
  | nil => simp [Memory.writeBytes]
  | cons v rest ih =>
    rw [Memory.writeBytes, ih, Memory.read_write]
    by_cases hb : b = a
    · subst hb; simp
    · by_cases hr : a + 1 ≤ b ∧ b < a + 1 + rest.length
      · have h2 : a ≤ b ∧ b < a + (rest.length + 1) := by omega
        obtain ⟨k, rfl⟩ : ∃ k, b = a + 1 + k := ⟨b - (a + 1), by omega⟩
        have e1 : a + 1 + k - (a + 1) = k := by omega
        have e2 : a + 1 + k - a = k + 1 := by omega
        simp [hr, e1, e2, h2]
      · have h2 : ¬(a ≤ b ∧ b < a + (rest.length + 1)) := by omega
        rw [dif_neg hr, dif_neg (by simpa using h2), if_neg hb]

theorem Memory.wf_iff (m : Memory) :
    m.wf font = true ↔
      m.Pairwise (fun c d => c.1 < d.1) ∧ ∀ c ∈ m, c.1 < 4096 ∧ c.2 ≠ resetByte font c.1 := by
  simp [Memory.wf]

theorem Memory.mem_insert (m : Memory) (a : Nat) (v : Byte) (c : Host.Cell) :
    c ∈ m.insert a v ↔ c = (a, v) ∨ c ∈ m := by
  induction m with
  | nil => simp [Memory.insert]
  | cons d rest ih =>
    unfold Memory.insert
    split
    · simp
    · simp only [List.mem_cons, ih]
      tauto

theorem Memory.insert_rising (m : Memory) (a : Nat) (v : Byte)
    (h : m.Pairwise fun c d => c.1 < d.1) (hne : ∀ c ∈ m, c.1 ≠ a) :
    (m.insert a v).Pairwise fun c d => c.1 < d.1 := by
  induction m with
  | nil => simp [Memory.insert]
  | cons c rest ih =>
    rw [List.pairwise_cons] at h
    unfold Memory.insert
    split
    · rename_i hlt
      refine List.pairwise_cons.2 ⟨?_, List.pairwise_cons.2 h⟩
      intro d hd
      rcases List.mem_cons.1 hd with rfl | hd
      · exact hlt
      · exact hlt.trans (h.1 d hd)
    · rename_i hlt
      have hca : c.1 ≠ a := hne c (by simp)
      refine List.pairwise_cons.2 ⟨?_, ih h.2 fun d hd => hne d (by simp [hd])⟩
      intro d hd
      rcases (Memory.mem_insert rest a v d).1 hd with rfl | hd
      · show c.1 < a
        omega
      · exact h.1 d hd

/-- A write inside memory keeps the canonical form. -/
theorem Memory.write_wf (m : Memory) (a : Nat) (v : Byte) (ha : a < 4096) (h : m.wf font = true) :
    (m.write font a v).wf font = true := by
  rw [Memory.wf_iff] at h ⊢
  have he : (m.erase a).Pairwise fun c d => c.1 < d.1 := h.1.filter _
  have hm : ∀ c ∈ m.erase a, c.1 < 4096 ∧ c.2 ≠ resetByte font c.1 := fun c hc =>
    h.2 c (List.mem_of_mem_filter hc)
  unfold Memory.write
  split
  · exact ⟨he, hm⟩
  · rename_i hv
    refine ⟨Memory.insert_rising _ a v he (Memory.erase_no_address m a), fun c hc => ?_⟩
    rcases (Memory.mem_insert _ a v c).1 hc with rfl | hc
    · exact ⟨ha, hv⟩
    · exact hm c hc

theorem Memory.writeBytes_wf (m : Memory) (a : Nat) (bs : List Byte) (ha : a + bs.length ≤ 4096)
    (h : m.wf font = true) : (m.writeBytes font a bs).wf font = true := by
  induction bs generalizing m a with
  | nil => exact h
  | cons v rest ih =>
    simp only [List.length_cons] at ha
    exact ih _ _ (by omega) (Memory.write_wf font m a v (by omega) h)

/-- The cell list of a canonical memory is determined by what its addresses read as. -/
theorem Memory.mem_iff_read (m : Memory) (h : m.wf font = true) (a : Nat) (v : Byte) :
    (a, v) ∈ m ↔ m.read font a = v ∧ v ≠ resetByte font a := by
  induction m with
  | nil =>
    simp only [List.not_mem_nil, Memory.read_nil, false_iff]
    rintro ⟨rfl, h2⟩
    exact h2 rfl
  | cons c rest ih =>
    rw [Memory.wf_iff, List.pairwise_cons] at h
    have hrest : Memory.wf font rest = true :=
      (Memory.wf_iff font rest).2 ⟨h.1.2, fun d hd => h.2 d (by simp [hd])⟩
    have hc := h.2 c (by simp)
    obtain ⟨k, b⟩ := c
    by_cases hk : k = a
    · subst hk
      have : (k, v) ∉ rest := fun hm => absurd (h.1.1 _ hm) (by simp)
      simp only [List.mem_cons, Prod.mk.injEq, true_and, this, or_false, Memory.read, if_true]
      constructor
      · rintro rfl
        exact ⟨rfl, hc.2⟩
      · rintro ⟨rfl, -⟩
        rfl
    · have hne : (a, v) ≠ (k, b) := by simp; omega
      simp [Memory.read, hk, ih hrest, hne]

section state

variable (s : State)

@[simp] theorem State.advance_readByte (a : Nat) : s.advance.readByte a = s.readByte a := rfl
@[simp] theorem State.setV_readByte (x : Reg) (b : Byte) (a : Nat) :
    (s.setV x b).readByte a = s.readByte a := rfl
@[simp] theorem State.jump_readByte (w : Word) (a : Nat) : (s.jump w).readByte a = s.readByte a := rfl
@[simp] theorem State.setI_readByte (w : Word) (a : Nat) : (s.setI w).readByte a = s.readByte a := rfl
@[simp] theorem State.raise_readByte (f : Fault) (a : Nat) : (s.raise f).readByte a = s.readByte a := rfl
@[simp] theorem State.skipIf_readByte (c : Bool) (a : Nat) :
    (s.skipIf c).readByte a = s.readByte a := by cases c <;> rfl

/-- What a store of several bytes does to every address. -/
theorem State.writeBytes_readByte (a b : Nat) (bs : List Byte) :
    (s.writeBytes a bs).readByte b =
      if h : a ≤ b ∧ b < a + bs.length then bs[b - a] else s.readByte b :=
  Memory.read_writeBytes s.config.font s.mem a b bs

end state

end Sys2Proof.Machine
end

