-- ==== Sys2Proof/Laws/Ops.lean ====
section
/-! SUPPORT. One lemma per shared operation that says all it can do. -/

namespace Sys2Proof.Machine

/-! ## The address check (20_memory.md R60) -/

theorem lowestOutOfBounds?_eq_none {base len : Nat} :
    lowestOutOfBounds? base len = none ↔ len = 0 ∨ base + len ≤ 0x1000 := by
  unfold lowestOutOfBounds?
  by_cases h : 0 < len ∧ 0xFFF < base + len - 1
  · rw [if_pos h]
    exact ⟨fun e => (nomatch e), fun e => by omega⟩
  · rw [if_neg h]
    exact ⟨fun _ => by omega, fun _ => rfl⟩

theorem lowestOutOfBounds?_eq_some {base len a : Nat} :
    lowestOutOfBounds? base len = some a ↔ (0 < len ∧ 0x1000 < base + len) ∧ a = max base 0x1000 := by
  unfold lowestOutOfBounds?
  by_cases h : 0 < len ∧ 0xFFF < base + len - 1
  · rw [if_pos h]
    exact ⟨fun e => ⟨by omega, (Option.some.inj e).symm⟩, fun e => by rw [e.2]⟩
  · rw [if_neg h]
    exact ⟨fun e => (nomatch e), fun e => absurd ⟨e.1.1, by omega⟩ h⟩

/-- The address reported is touched, is outside memory, and no lower touched address is outside memory. -/
theorem lowestOutOfBounds?_is_lowest {base len a : Nat} (h : lowestOutOfBounds? base len = some a) :
    (base ≤ a ∧ a < base + len ∧ 0xFFF < a) ∧ ∀ b, base ≤ b → 0xFFF < b → a ≤ b := by
  obtain ⟨h1, rfl⟩ := lowestOutOfBounds?_eq_some.1 h
  exact ⟨by omega, fun b h2 h3 => by omega⟩

/-! ## Registers -/

theorem State.setV_getV (s : State) (x y : Reg) (b : Byte) :
    (s.setV x b).getV y = if y = x then b else s.getV y := by
  unfold State.getV State.setV
  by_cases h : y = x
  · subst h; simp
  · have : x.val ≠ y.val := fun e => h (Fin.ext e.symm)
    simp [h, this]

@[simp] theorem State.advance_getV (s : State) (x : Reg) : s.advance.getV x = s.getV x := rfl

/-- The order of 42_alu.md R131: VF is the flag whatever x is; Vx is the result unless x is VF. -/
theorem State.setResultThenFlag_getV (s : State) (x y : Reg) (res : Byte) (flag : Bool) :
    (s.setResultThenFlag x res flag).getV y =
      if y = VF then flagByte flag else if y = x then res else s.getV y := by
  rw [State.setResultThenFlag, State.setV_getV, State.setV_getV]

theorem State.getV_eq (s : State) (x : Reg) : s.getV x = s.v[x.val] := rfl

/-- A skip after the default advance goes to pc0 + 4, else to pc0 + 2 (41_skips.md R120). -/
theorem State.advance_skipIf (s : State) (c : Bool) :
    s.advance.skipIf c = { s with pc := if c then s.pc + 4 else s.pc + 2 } := by
  have e : s.pc + 2 + 2 = s.pc + 4 := BitVec.add_assoc s.pc 2 2
  cases c
  · rfl
  · simp only [State.skipIf, State.advance, e, if_true]

/-! ## The call stack -/

theorem State.push?_full (s : State) (a : Word) (h : s.sp.val = 16) : s.push? a = none := by
  simp [State.push?, h]

theorem State.push?_eq (s : State) (a : Word) (h : s.sp.val < 16) :
    s.push? a = some { s with stack := s.stack.set s.sp.val a, sp := ⟨s.sp.val + 1, by omega⟩ } := by
  simp [State.push?, h]

theorem State.pop?_empty (s : State) (h : s.sp.val = 0) : s.pop? = none := by
  simp [State.pop?, h]

theorem State.pop?_eq (s : State) (h : 0 < s.sp.val) :
    s.pop? = some (s.stack[s.sp.val - 1], { s with sp := ⟨s.sp.val - 1, by omega⟩ }) := by
  simp [State.pop?, h]

/-! ## Operands -/

@[simp] theorem addrOperand_toNat (nnn : Addr12) : (addrOperand nnn).toNat = nnn.toNat := by
  simp [addrOperand]; omega

@[simp] theorem byteOperand_toNat (b : Byte) : (byteOperand b).toNat = b.toNat := by
  simp [byteOperand]; omega

theorem glyphAddress_toNat (b : Byte) : (glyphAddress b).toNat = b.toNat * 5 := by
  rw [glyphAddress, BitVec.toNat_mul, byteOperand_toNat]
  have h5 : (5 : Word).toNat = 5 := rfl
  rw [h5]; omega

theorem State.keyState?_key (s : State) (k : Byte) (h : k.toNat < 16) :
    s.keyState? k = some s.keys[k.toNat] := by
  simp [State.keyState?, h]

theorem State.keyState?_none (s : State) (k : Byte) (h : 15 < k.toNat) : s.keyState? k = none := by
  simp [State.keyState?]; omega

theorem State.mem_keysDown (s : State) (k : Reg) : k ∈ s.keysDown ↔ s.keys[k.val] = true := by
  simp [State.keysDown]

theorem State.pickKey?_eq_none (s : State) : s.pickKey? = none ↔ ∀ k : Reg, s.keys[k.val] = false := by
  have : s.keysDown = [] ↔ ∀ k : Reg, s.keys[k.val] = false := by
    simp [List.eq_nil_iff_forall_not_mem, State.mem_keysDown]
  unfold State.pickKey?
  cases s.config.keyWaitPick <;> simp [List.max?_eq_none_iff, List.min?_eq_none_iff, this]

/-- The key taken is down, and no key down is higher (or, under P_KEYWAIT_PICK = lowest, lower). -/
theorem State.pickKey?_eq_some (s : State) (k : Reg) :
    s.pickKey? = some k ↔ s.keys[k.val] = true ∧ ∀ j : Reg, s.keys[j.val] = true →
      match s.config.keyWaitPick with
      | .highest => j ≤ k
      | .lowest => k ≤ j := by
  unfold State.pickKey?
  cases s.config.keyWaitPick
  · simp [List.max?_eq_some_iff, State.mem_keysDown]
  · simp [List.min?_eq_some_iff, State.mem_keysDown]

@[simp] theorem bcdDigits_length (b : Byte) : (bcdDigits b).length = 3 := rfl

@[simp] theorem State.regBlock_length (s : State) (x : Reg) : (s.regBlock x).length = x.val + 1 := by
  simp [State.regBlock]

theorem State.regBlock_getElem (s : State) (x : Reg) (j : Nat) (h : j < (s.regBlock x).length) :
    (s.regBlock x)[j] = s.v[j]'(by simp at h; omega) := by
  simp [State.regBlock]

theorem State.loadBlock_getElem (s : State) (x : Reg) (a j : Nat) (h : j < 16) :
    (s.loadBlock x a)[j] = if j ≤ x.val then s.readByte (a + j) else s.v[j] := by
  rw [State.loadBlock, Vector.getElem_ofFn]

/-! ## Placing and fetching a word -/

/-- The word at PC is the word placed there (20_memory.md R53). -/
theorem State.placeWord_instrWord (s : State) (w : Word) : (s.placeWord w).instrWord = w := by
  have hpc : (s.placeWord w).pc = s.pc := rfl
  rw [State.instrWord, hpc]
  simp only [State.placeWord, State.writeBytes_readByte, List.length_cons, List.length_nil]
  have h0 : s.pc.toNat ≤ s.pc.toNat ∧ s.pc.toNat < s.pc.toNat + (0 + 1 + 1) := by omega
  have h1 : s.pc.toNat ≤ s.pc.toNat + 1 ∧ s.pc.toNat + 1 < s.pc.toNat + (0 + 1 + 1) := by omega
  have e : s.pc.toNat + 1 - s.pc.toNat = 1 := by omega
  rw [dif_pos h0, dif_pos h1]
  simp only [Nat.sub_self, e, List.getElem_cons_zero, List.getElem_cons_succ]
  exact wordOfBytes_high_low w

end Sys2Proof.Machine
end

