-- ==== Sys2Proof/Laws/Step.lean ====
section
/-! SUPPORT. What a cycle can do, said once: the inversion lemmas of `step`, of the meanings that can fault, and of
the host events. -/

namespace Sys2Proof.Machine

/-- Every cycle is one of these. -/
theorem step_cases {s t : State} (h : step s = .next t) :
    (∃ f, s.status = .faulted f ∧ t = s) ∨
    (s.status = .running ∧ ∃ f, s.fetchFault? = some f ∧ t = s.raise f) ∨
    (s.status = .running ∧ s.fetchFault? = none ∧ ∃ i,
      decodeWord s.config.strictDecode s.instrWord = .ok i ∧ exec i s = .next t) ∨
    (s.status = .running ∧ s.fetchFault? = none ∧ (∃ e,
      decodeWord s.config.strictDecode s.instrWord = .error e) ∧ t = s.advance) := by
  unfold step at h
  split at h
  · rename_i f hs
    exact .inl ⟨f, hs, (Host.Outcome.next.inj h).symm⟩
  · rename_i hs
    split at h
    · rename_i f hf
      exact .inr (.inl ⟨hs, f, hf, (Host.Outcome.next.inj h).symm⟩)
    · rename_i hf
      split at h
      · rename_i i hi
        exact .inr (.inr (.inl ⟨hs, hf, i, hi, h⟩))
      · rename_i e he
        exact .inr (.inr (.inr ⟨hs, hf, ⟨e, he⟩, (Host.Outcome.next.inj h).symm⟩))

theorem fetchFault?_eq_some {s : State} {f : Fault} (h : s.fetchFault? = some f) :
    (0xFFE < s.pc.toNat ∧ f = .fetchOutOfBounds s.pc) ∨
    (s.pc.toNat ≤ 0xFFE ∧ s.config.oddPc = .fault ∧ s.pc.toNat % 2 = 1 ∧ f = .misalignedFetch s.pc) := by
  unfold State.fetchFault? at h
  split at h
  · rename_i h1
    exact .inl ⟨h1, (Option.some.inj h).symm⟩
  · rename_i h1
    split at h
    · rename_i h2
      exact .inr ⟨by omega, h2.1, h2.2, (Option.some.inj h).symm⟩
    · cases h

theorem fetchFault?_eq_none {s : State} : s.fetchFault? = none ↔
    s.pc.toNat ≤ 0xFFE ∧ (s.config.oddPc = .execute ∨ s.pc.toNat % 2 = 0) := by
  unfold State.fetchFault?
  have ho : s.config.oddPc = .execute ∨ s.config.oddPc = .fault := by cases s.config.oddPc <;> simp
  by_cases h1 : 0xFFE < s.pc.toNat
  · simp [h1]
  · by_cases h2 : s.config.oddPc = .fault ∧ s.pc.toNat % 2 = 1
    · simp [h1, h2]
    · rw [if_neg h1, if_neg h2]
      refine ⟨fun _ => ⟨by omega, ?_⟩, fun _ => rfl⟩
      rcases ho with h | h
      · exact .inl h
      · have : s.pc.toNat % 2 ≠ 1 := fun h' => h2 ⟨h, h'⟩
        exact .inr (by omega)

theorem execRet_cases {s t : State} (h : execRet s = .next t) :
    (s.sp.val = 0 ∧ t = s.raise (.stackUnderflow s.pc s.instrWord)) ∨
    ∃ h0 : 0 < s.sp.val, t = { s with sp := ⟨s.sp.val - 1, by omega⟩, pc := s.stack[s.sp.val - 1] } := by
  by_cases h0 : 0 < s.sp.val
  · rw [execRet, State.pop?_eq s.advance h0] at h
    exact .inr ⟨h0, (Host.Outcome.next.inj h).symm⟩
  · have hz : s.sp.val = 0 := by omega
    rw [execRet, State.pop?_empty s.advance hz] at h
    exact .inl ⟨hz, (Host.Outcome.next.inj h).symm⟩

theorem execCall_cases {nnn : Addr12} {s t : State} (h : execCall nnn s = .next t) :
    (s.sp.val = 16 ∧ t = s.raise (.stackOverflow s.pc s.instrWord)) ∨
    ∃ h0 : s.sp.val < 16, t =
      { s with
        stack := s.stack.set s.sp.val (s.pc + 2)
        sp := ⟨s.sp.val + 1, by omega⟩
        pc := addrOperand nnn } := by
  by_cases h0 : s.sp.val < 16
  · rw [execCall, State.push?_eq s.advance _ h0] at h
    exact .inr ⟨h0, (Host.Outcome.next.inj h).symm⟩
  · have hz : s.sp.val = 16 := by omega
    rw [execCall, State.push?_full s.advance _ hz] at h
    exact .inl ⟨hz, (Host.Outcome.next.inj h).symm⟩

theorem execAddI_cases {x : Reg} {s t : State} (h : execAddI x s = .next t) :
    (0xFFFF < s.i.toNat + (s.getV x).toNat ∧ t = s.raise (.iOverflow s.i (s.getV x) s.pc s.instrWord)) ∨
    (s.i.toNat + (s.getV x).toNat ≤ 0xFFFF ∧ t = s.advance.setI (s.i + byteOperand (s.getV x))) := by
  unfold execAddI at h
  split at h
  · rename_i h0
    exact .inl ⟨h0, (Host.Outcome.next.inj h).symm⟩
  · rename_i h0
    exact .inr ⟨by omega, (Host.Outcome.next.inj h).symm⟩

/-- The shape the memory instructions share: the address check first, then the whole effect. -/
theorem checked_cases {base len : Nat} {s t u : State} {w : Word}
    (h : (match lowestOutOfBounds? base len with
      | some a => Host.Outcome.next (s.raise (.memOutOfBounds a s.pc w))
      | none => .next u : Host.Outcome State Fault Refusal) = .next t) :
    ((0 < len ∧ 0x1000 < base + len) ∧ t = s.raise (.memOutOfBounds (max base 0x1000) s.pc w)) ∨
    ((len = 0 ∨ base + len ≤ 0x1000) ∧ t = u) := by
  split at h
  · rename_i a ha
    obtain ⟨h1, rfl⟩ := lowestOutOfBounds?_eq_some.1 ha
    exact .inl ⟨h1, (Host.Outcome.next.inj h).symm⟩
  · rename_i hn
    exact .inr ⟨lowestOutOfBounds?_eq_none.1 hn, (Host.Outcome.next.inj h).symm⟩

theorem execLdBcd_cases {x : Reg} {s t : State} (h : execLdBcd x s = .next t) :
    (0x1000 < s.i.toNat + 3 ∧ t = s.raise (.memOutOfBounds (max s.i.toNat 0x1000) s.pc s.instrWord)) ∨
    (s.i.toNat + 3 ≤ 0x1000 ∧ t = s.advance.writeBytes s.i.toNat (bcdDigits (s.getV x))) := by
  rcases checked_cases h with ⟨h1, h2⟩ | ⟨h1, h2⟩
  · exact .inl ⟨h1.2, h2⟩
  · exact .inr ⟨by omega, h2⟩

theorem execStoreRegs_cases {x : Reg} {s t : State} (h : execStoreRegs x s = .next t) :
    (0x1000 < s.i.toNat + (x.val + 1) ∧
      t = s.raise (.memOutOfBounds (max s.i.toNat 0x1000) s.pc s.instrWord)) ∨
    (s.i.toNat + (x.val + 1) ≤ 0x1000 ∧ t = s.advance.writeBytes s.i.toNat (s.regBlock x)) := by
  rcases checked_cases h with ⟨h1, h2⟩ | ⟨h1, h2⟩
  · exact .inl ⟨h1.2, h2⟩
  · exact .inr ⟨by omega, h2⟩

theorem execLoadRegs_cases {x : Reg} {s t : State} (h : execLoadRegs x s = .next t) :
    (0x1000 < s.i.toNat + (x.val + 1) ∧
      t = s.raise (.memOutOfBounds (max s.i.toNat 0x1000) s.pc s.instrWord)) ∨
    (s.i.toNat + (x.val + 1) ≤ 0x1000 ∧ t = { s.advance with v := s.loadBlock x s.i.toNat }) := by
  rcases checked_cases h with ⟨h1, h2⟩ | ⟨h1, h2⟩
  · exact .inl ⟨h1.2, h2⟩
  · exact .inr ⟨by omega, h2⟩

theorem execDrw_cases {x y : Reg} {n : Fin 16} {s t : State} (h : execDrw x y n s = .next t) :
    ((0 < n.val ∧ 0x1000 < s.i.toNat + n.val) ∧
      t = s.raise (.memOutOfBounds (max s.i.toNat 0x1000) s.pc s.instrWord)) ∨
    ((n.val = 0 ∨ s.i.toNat + n.val ≤ 0x1000) ∧
      t = { s.advance with
        fb := (drawSprite s n.val s.i.toNat (s.getV x).toNat (s.getV y).toNat).1 }.setV VF
          (flagByte (drawSprite s n.val s.i.toNat (s.getV x).toNat (s.getV y).toNat).2)) :=
  checked_cases h

theorem execSkp_cases {x : Reg} {s t : State} (h : execSkp x s = .next t) :
    (15 < (s.getV x).toNat ∧ t = s.raise (.keyOutOfRange (s.getV x) s.pc s.instrWord)) ∨
    ∃ h0 : (s.getV x).toNat < 16, t = s.advance.skipIf s.keys[(s.getV x).toNat] := by
  by_cases h0 : (s.getV x).toNat < 16
  · rw [execSkp, State.keyState?_key s _ h0] at h
    exact .inr ⟨h0, (Host.Outcome.next.inj h).symm⟩
  · rw [execSkp, State.keyState?_none s _ (by omega)] at h
    exact .inl ⟨by omega, (Host.Outcome.next.inj h).symm⟩

theorem execSknp_cases {x : Reg} {s t : State} (h : execSknp x s = .next t) :
    (15 < (s.getV x).toNat ∧ t = s.raise (.keyOutOfRange (s.getV x) s.pc s.instrWord)) ∨
    ∃ h0 : (s.getV x).toNat < 16, t = s.advance.skipIf (!s.keys[(s.getV x).toNat]) := by
  by_cases h0 : (s.getV x).toNat < 16
  · rw [execSknp, State.keyState?_key s _ h0] at h
    exact .inr ⟨h0, (Host.Outcome.next.inj h).symm⟩
  · rw [execSknp, State.keyState?_none s _ (by omega)] at h
    exact .inl ⟨by omega, (Host.Outcome.next.inj h).symm⟩

theorem execLdVxKey_cases {x : Reg} {s t : State} (h : execLdVxKey x s = .next t) :
    ((∀ k : Reg, s.keys[k.val] = false) ∧ t = s) ∨
    ∃ k, s.pickKey? = some k ∧ t = s.advance.setV x (BitVec.ofNat 8 k.val) := by
  unfold execLdVxKey at h
  split at h
  · rename_i hn
    refine .inl ⟨(State.pickKey?_eq_none s).1 hn, ?_⟩
    have hpc : s.pc + 2 - 2 = s.pc := BitVec.add_sub_cancel ..
    simp only [State.jump, State.advance, hpc] at h
    exact (Host.Outcome.next.inj h).symm
  · rename_i k hk
    exact .inr ⟨k, hk, (Host.Outcome.next.inj h).symm⟩

theorem setKey?_cases {s t : State} {k : Nat} {down : Bool} (h : s.setKey? k down = some t) :
    ∃ hk : k < 16, t = { s with keys := s.keys.set k down } := by
  unfold State.setKey? at h
  split at h
  · rename_i hk
    exact ⟨hk, (Option.some.inj h).symm⟩
  · cases h

/-- A ROM load changes the bytes from 0x200, when they fit, and nothing else. -/
theorem loadRom_state (s : State) (bytes : List Byte) :
    (bytes.length ≤ 3584 ∧ (s.loadRom bytes) = (.loaded, s.writeBytes 0x200 bytes)) ∨
    (3584 < bytes.length ∧ (s.loadRom bytes) = (.romTooLarge bytes.length, s)) := by
  unfold State.loadRom romLengthOk
  by_cases h : bytes.length ≤ 3584
  · exact .inl ⟨h, by simp [h]⟩
  · exact .inr ⟨by omega, by simp [h]⟩

/-- Every host event that has a next state is one of these. -/
theorem applyEvent_cases {e : Event} {s t : State} (h : applyEvent e s = .next t) :
    (∃ f, s.status = .faulted f ∧ t = s) ∨
    (s.status = .running ∧ (
      (e = .cycle ∧ step s = .next t) ∨ (e = .tick ∧ t = s.tick) ∨
      (∃ k down, ∃ _ : k < 16, (e = .keyDown k ∨ e = .keyUp k) ∧ t = { s with keys := s.keys.set k down }) ∨
      (∃ bytes, e = .loadRom bytes ∧ t = (s.loadRom bytes).2) ∨ (e = .readFramebuffer ∧ t = s))) := by
  unfold applyEvent at h
  split at h
  · rename_i f hs
    exact .inl ⟨f, hs, (Host.Outcome.next.inj h).symm⟩
  · rename_i hs
    refine .inr ⟨hs, ?_⟩
    cases e with
    | cycle => exact .inl ⟨rfl, h⟩
    | tick => exact .inr (.inl ⟨rfl, (Host.Outcome.next.inj h).symm⟩)
    | keyDown k =>
      simp only at h
      split at h
      · rename_i u hu
        obtain ⟨hk, rfl⟩ := setKey?_cases hu
        exact .inr (.inr (.inl ⟨k, true, hk, .inl rfl, (Host.Outcome.next.inj h).symm⟩))
      · cases h
    | keyUp k =>
      simp only at h
      split at h
      · rename_i u hu
        obtain ⟨hk, rfl⟩ := setKey?_cases hu
        exact .inr (.inr (.inl ⟨k, false, hk, .inr rfl, (Host.Outcome.next.inj h).symm⟩))
      · cases h
    | loadRom bytes => exact .inr (.inr (.inr (.inl ⟨bytes, rfl, (Host.Outcome.next.inj h).symm⟩)))
    | readFramebuffer => exact .inr (.inr (.inr (.inr ⟨rfl, (Host.Outcome.next.inj h).symm⟩)))

/-! ## Sequences of host events -/

@[simp] theorem runEvents_nil (s : State) : runEvents [] s = .next s := rfl

theorem runEvents_cons {e : Event} {s t : State} (h : applyEvent e s = .next t) (rest : List Event) :
    runEvents (e :: rest) s = runEvents rest t := by
  simp only [runEvents, h]

/-- A sequence that has an answer has one after its first event. -/
theorem runEvents_cons_cases {e : Event} {rest : List Event} {s u : State}
    (h : runEvents (e :: rest) s = .next u) : ∃ t, applyEvent e s = .next t ∧ runEvents rest t = .next u := by
  rw [runEvents] at h
  split at h
  · exact ⟨_, ‹_›, h⟩
  · cases h
  · cases h

@[simp] theorem runStream_zero (events : Nat → Event) (s : State) : runStream events s 0 = .next s := rfl

theorem runStream_succ {events : Nat → Event} {s t : State} {n : Nat} (h : runStream events s n = .next t) :
    runStream events s (n + 1) = applyEvent (events n) t := by
  simp only [runStream, h]

/-- A stream that has an answer after `n + 1` events has one after `n`. -/
theorem runStream_succ_cases {events : Nat → Event} {s u : State} {n : Nat}
    (h : runStream events s (n + 1) = .next u) :
    ∃ t, runStream events s n = .next t ∧ applyEvent (events n) t = .next u := by
  rw [runStream] at h
  split at h
  · exact ⟨_, ‹_›, h⟩
  · cases h
  · cases h

/-- What every event keeps, every finite sequence keeps. -/
theorem runEvents_keeps {P : State → Prop} (hP : ∀ e s t, P s → applyEvent e s = .next t → P t)
    {events : List Event} {s t : State} (hs : P s) (h : runEvents events s = .next t) : P t := by
  induction events generalizing s with
  | nil => cases h; exact hs
  | cons e rest ih =>
    obtain ⟨u, hu, h⟩ := runEvents_cons_cases h
    exact ih (hP e s u hs hu) h

/-- What every event keeps, every infinite sequence keeps at every point. -/
theorem runStream_keeps {P : State → Prop} (hP : ∀ e s t, P s → applyEvent e s = .next t → P t)
    {events : Nat → Event} {s t : State} {n : Nat} (hs : P s) (h : runStream events s n = .next t) : P t := by
  induction n generalizing t with
  | zero => cases h; exact hs
  | succ n ih =>
    obtain ⟨u, hu, h⟩ := runStream_succ_cases h
    exact hP _ u t (ih hu) h

/-- The same events as a finite sequence. -/
theorem runStream_eq_runEvents {events : Nat → Event} {s t : State} {n : Nat}
    (h : runStream events s n = .next t) : runEvents ((List.range n).map events) s = .next t := by
  induction n generalizing s t events with
  | zero => exact h
  | succ n ih =>
    have first : ∀ m u, runStream events s (m + 1) = .next u → ∃ v, applyEvent (events 0) s = .next v ∧
        runStream (fun k => events (k + 1)) v m = .next u := by
      intro m
      induction m with
      | zero => exact fun u hu => ⟨u, by simpa [runStream] using hu, rfl⟩
      | succ m ihm =>
        intro u hu
        obtain ⟨w, hw, hu⟩ := runStream_succ_cases hu
        obtain ⟨v, hv, hw⟩ := ihm w hw
        exact ⟨v, hv, by rw [runStream_succ hw]; exact hu⟩
    obtain ⟨v, hv, h⟩ := first n t h
    rw [List.range_succ_eq_map, List.map_cons, List.map_map, runEvents_cons hv]
    exact ih h

end Sys2Proof.Machine
end

