-- ==== Sys2Proof/Laws/Exec.lean ====
section
/-! SUPPORT. Everything an instruction can do, said once: the shapes of the next state, and that `exec` has no
others. A claim about every instruction is proved by cases on `exec_effect`. -/

namespace Sys2Proof.Machine

/-- A skip instruction (41_skips.md R120). -/
def IsSkip : Instr → Prop
  | .seImm _ _ | .sneImm _ _ | .seReg _ _ | .sneReg _ _ | .skp _ | .sknp _ => True
  | .cls | .ret | .jp _ | .call _ | .ldImm _ _ | .addImm _ _ | .ldReg _ _ | .orReg _ _ | .andReg _ _ => False
  | .xorReg _ _ | .addReg _ _ | .subReg _ _ | .shrReg _ _ | .subnReg _ _ | .shlReg _ _ | .ldI _ => False
  | .jpV0 _ | .rnd _ _ | .drw _ _ _ | .ldVxDt _ | .ldVxKey _ | .ldDtVx _ | .ldStVx _ | .addI _ => False
  | .ldFont _ | .ldBcd _ | .storeRegs _ | .loadRegs _ => False

/-- An instruction whose whole effect besides the advance can be one V register. -/
def SetsOnly (x : Reg) : Instr → Prop
  | .ldImm y _ | .addImm y _ | .ldReg y _ | .orReg y _ | .andReg y _ | .xorReg y _ | .ldVxDt y => y = x
  | .ldVxKey y => y = x
  | .cls | .ret | .jp _ | .call _ | .seImm _ _ | .sneImm _ _ | .seReg _ _ | .sneReg _ _ | .addReg _ _ => False
  | .subReg _ _ | .shrReg _ _ | .subnReg _ _ | .shlReg _ _ | .ldI _ | .jpV0 _ | .rnd _ _ | .drw _ _ _ => False
  | .skp _ | .sknp _ | .ldDtVx _ | .ldStVx _ | .addI _ | .ldFont _ | .ldBcd _ | .storeRegs _ => False
  | .loadRegs _ => False

/-- An instruction that writes a result and then the flag (42_alu.md R131). -/
def SetsWithFlag (x : Reg) : Instr → Prop
  | .addReg y _ | .subReg y _ | .shrReg y _ | .subnReg y _ | .shlReg y _ => y = x
  | .cls | .ret | .jp _ | .call _ | .seImm _ _ | .sneImm _ _ | .seReg _ _ | .sneReg _ _ | .ldImm _ _ => False
  | .addImm _ _ | .ldReg _ _ | .orReg _ _ | .andReg _ _ | .xorReg _ _ | .ldI _ | .jpV0 _ | .rnd _ _ => False
  | .drw _ _ _ | .skp _ | .sknp _ | .ldVxDt _ | .ldVxKey _ | .ldDtVx _ | .ldStVx _ | .addI _ => False
  | .ldFont _ | .ldBcd _ | .storeRegs _ | .loadRegs _ => False

/-- The shapes of an instruction's next state. -/
inductive Effect : Instr → State → State → Prop where
  | raise (i : Instr) (s : State) (f : Fault) (hc : CauseCode i = some f.code) (hp : f.pc0 = s.pc)
      (hw : f.word? = some s.instrWord) : Effect i s (s.raise f)
  | cls (s : State) : Effect .cls s { s.advance with fb := Framebuffer.blank }
  | ret (s : State) (h : 0 < s.sp.val) :
      Effect .ret s { s with sp := ⟨s.sp.val - 1, by omega⟩, pc := s.stack[s.sp.val - 1] }
  | jp (s : State) (nnn : Addr12) : Effect (.jp nnn) s (s.advance.jump (addrOperand nnn))
  | call (s : State) (nnn : Addr12) (h : s.sp.val < 16) :
      Effect (.call nnn) s
        { s with
          stack := s.stack.set s.sp.val (s.pc + 2)
          sp := ⟨s.sp.val + 1, by omega⟩
          pc := addrOperand nnn }
  | skip (i : Instr) (s : State) (c : Bool) (hi : IsSkip i) : Effect i s (s.advance.skipIf c)
  | set (i : Instr) (s : State) (x : Reg) (b : Byte) (hi : SetsOnly x i) : Effect i s (s.advance.setV x b)
  | flag (i : Instr) (s : State) (x : Reg) (b : Byte) (c : Bool) (hi : SetsWithFlag x i) :
      Effect i s (s.advance.setResultThenFlag x b c)
  | ldI (s : State) (nnn : Addr12) : Effect (.ldI nnn) s (s.advance.setI (addrOperand nnn))
  | jpV0 (s : State) (nnn : Addr12) :
      Effect (.jpV0 nnn) s (s.advance.jump (byteOperand (s.getV 0) + addrOperand nnn))
  | rnd (s : State) (x : Reg) (kk r : Byte) : Effect (.rnd x kk) s (s.advance.randomAnd r x kk)
  | drw (s : State) (x y : Reg) (n : Fin 16) (fb : Framebuffer) (c : Bool) :
      Effect (.drw x y n) s ({ s.advance with fb := fb }.setV VF (flagByte c))
  | wait (s : State) (x : Reg) : Effect (.ldVxKey x) s s
  | dt (s : State) (x : Reg) : Effect (.ldDtVx x) s { s.advance with dt := s.getV x }
  | st (s : State) (x : Reg) : Effect (.ldStVx x) s { s.advance with st := s.getV x }
  | addI (s : State) (x : Reg) (h : s.i.toNat + (s.getV x).toNat ≤ 0xFFFF) :
      Effect (.addI x) s (s.advance.setI (s.i + byteOperand (s.getV x)))
  | font (s : State) (x : Reg) : Effect (.ldFont x) s (s.advance.setI (glyphAddress (s.getV x)))
  | bcd (s : State) (x : Reg) (h : s.i.toNat + 3 ≤ 0x1000) :
      Effect (.ldBcd x) s (s.advance.writeBytes s.i.toNat (bcdDigits (s.getV x)))
  | store (s : State) (x : Reg) (h : s.i.toNat + (x.val + 1) ≤ 0x1000) :
      Effect (.storeRegs x) s (s.advance.writeBytes s.i.toNat (s.regBlock x))
  | load (s : State) (x : Reg) (h : s.i.toNat + (x.val + 1) ≤ 0x1000) :
      Effect (.loadRegs x) s { s.advance with v := s.loadBlock x s.i.toNat }

/-- `exec` does nothing else. -/
theorem exec_effect {i : Instr} {s t : State} (h : exec i s = .next t) : Effect i s t := by
  cases i with
  | cls => cases h; exact .cls s
  | ret =>
    rcases execRet_cases h with ⟨_, rfl⟩ | ⟨h0, rfl⟩
    exacts [.raise _ _ _ rfl rfl rfl, .ret s h0]
  | jp nnn => cases h; exact .jp s nnn
  | call nnn =>
    rcases execCall_cases h with ⟨_, rfl⟩ | ⟨h0, rfl⟩
    exacts [.raise _ _ _ rfl rfl rfl, .call s nnn h0]
  | seImm x kk => cases h; exact .skip _ _ _ trivial
  | sneImm x kk => cases h; exact .skip _ _ _ trivial
  | seReg x y => cases h; exact .skip _ _ _ trivial
  | ldImm x kk => cases h; exact .set _ _ _ _ rfl
  | addImm x kk => cases h; exact .set _ _ _ _ rfl
  | ldReg x y => cases h; exact .set _ _ _ _ rfl
  | orReg x y => cases h; exact .set _ _ _ _ rfl
  | andReg x y => cases h; exact .set _ _ _ _ rfl
  | xorReg x y => cases h; exact .set _ _ _ _ rfl
  | addReg x y => cases h; exact .flag _ _ _ _ _ rfl
  | subReg x y => cases h; exact .flag _ _ _ _ _ rfl
  | shrReg x y => cases h; exact .flag _ _ _ _ _ rfl
  | subnReg x y => cases h; exact .flag _ _ _ _ _ rfl
  | shlReg x y => cases h; exact .flag _ _ _ _ _ rfl
  | sneReg x y => cases h; exact .skip _ _ _ trivial
  | ldI nnn => cases h; exact .ldI s nnn
  | jpV0 nnn => cases h; exact .jpV0 s nnn
  | rnd x kk => cases h; exact .rnd s x kk _
  | drw x y n =>
    rcases execDrw_cases h with ⟨_, rfl⟩ | ⟨_, rfl⟩
    exacts [.raise _ _ _ rfl rfl rfl, .drw s x y n _ _]
  | skp x =>
    rcases execSkp_cases h with ⟨_, rfl⟩ | ⟨_, rfl⟩
    exacts [.raise _ _ _ rfl rfl rfl, .skip _ _ _ trivial]
  | sknp x =>
    rcases execSknp_cases h with ⟨_, rfl⟩ | ⟨_, rfl⟩
    exacts [.raise _ _ _ rfl rfl rfl, .skip _ _ _ trivial]
  | ldVxDt x => cases h; exact .set _ _ _ _ rfl
  | ldVxKey x =>
    rcases execLdVxKey_cases h with ⟨_, rfl⟩ | ⟨k, _, rfl⟩
    exacts [.wait _ x, .set _ _ _ _ rfl]
  | ldDtVx x => cases h; exact .dt s x
  | ldStVx x => cases h; exact .st s x
  | addI x =>
    rcases execAddI_cases h with ⟨_, rfl⟩ | ⟨h0, rfl⟩
    exacts [.raise _ _ _ rfl rfl rfl, .addI s x h0]
  | ldFont x => cases h; exact .font s x
  | ldBcd x =>
    rcases execLdBcd_cases h with ⟨_, rfl⟩ | ⟨h0, rfl⟩
    exacts [.raise _ _ _ rfl rfl rfl, .bcd s x h0]
  | storeRegs x =>
    rcases execStoreRegs_cases h with ⟨_, rfl⟩ | ⟨h0, rfl⟩
    exacts [.raise _ _ _ rfl rfl rfl, .store s x h0]
  | loadRegs x =>
    rcases execLoadRegs_cases h with ⟨_, rfl⟩ | ⟨h0, rfl⟩
    exacts [.raise _ _ _ rfl rfl rfl, .load s x h0]

end Sys2Proof.Machine
end

