-- ==== Sys2Proof/Laws/Framebuffer.lean ====
section
/-! SUPPORT. The framebuffer and the sprite plot (44_display.md R180 to R183): what a pixel write does, and what a
whole plot does to every pixel and to the collision. -/

namespace Sys2Proof.Machine

@[simp] theorem Framebuffer.get_blank (row : Fin 32) (col : Fin 64) :
    Framebuffer.get Framebuffer.blank row col = false := by
  simp [Framebuffer.get, Framebuffer.blank]

theorem Framebuffer.get_set (fb : Framebuffer) (row row' : Fin 32) (col col' : Fin 64) (p : Bool) :
    Framebuffer.get (Framebuffer.set fb row col p) row' col' =
      if row' = row ∧ col' = col then p else Framebuffer.get fb row' col' := by
  unfold Framebuffer.get Framebuffer.set
  by_cases hr : row' = row
  · subst hr
    by_cases hc : col' = col
    · subst hc; simp
    · have : col.val ≠ col'.val := fun h => hc (Fin.ext h.symm)
      simp [hc, this]
  · have : row.val ≠ row'.val := fun h => hr (Fin.ext h.symm)
    simp [hr, this]

/-- Two framebuffers with the same pixels are equal. -/
theorem Framebuffer.ext_get {fb fb' : Framebuffer}
    (h : ∀ row col, Framebuffer.get fb row col = Framebuffer.get fb' row col) : fb = fb' := by
  refine Vector.ext fun r hr => Vector.ext fun c hc => ?_
  exact h ⟨r, hr⟩ ⟨c, hc⟩

/-- A sprite bit with the pixel it meets. -/
abbrev SpriteBit := (Fin 32 × Fin 64) × Bool

/-- The bits of a sprite in the order of the plot. -/
def spriteBits (s : State) (count address x y : Nat) : List SpriteBit :=
  (List.range count).flatMap fun r => (List.range 8).map fun b =>
    ((Fin.ofNat 32 (y + r), Fin.ofNat 64 (x + b)), (s.readByte (address + r)).getLsbD (7 - b))

/-- A sprite bit 1 falls on the pixel (44_display.md R181): the plot's effect on a pixel, said without its loop. -/
def SpriteCovers (s : State) (count address x y : Nat) (row : Fin 32) (col : Fin 64) : Prop :=
  ∃ r < count, ∃ b < 8, row.val = (y + r) % 32 ∧ col.val = (x + b) % 64 ∧
    (s.readByte (address + r)).getLsbD (7 - b) = true

theorem mem_spriteBits (s : State) (count address x y : Nat) (row : Fin 32) (col : Fin 64) :
    ((row, col), true) ∈ spriteBits s count address x y ↔ SpriteCovers s count address x y row col := by
  unfold spriteBits SpriteCovers
  simp only [List.mem_flatMap, List.mem_map, List.mem_range, Prod.mk.injEq, Fin.ext_iff, Fin.val_ofNat]
  constructor
  · rintro ⟨r, hr, b, hb, ⟨h1, h2⟩, h3⟩
    exact ⟨r, hr, b, hb, h1.symm, h2.symm, h3⟩
  · rintro ⟨r, hr, b, hb, h1, h2, h3⟩
    exact ⟨r, hr, b, hb, ⟨h1.symm, h2.symm⟩, h3⟩

/-- One plot touches each pixel at most once (44_display.md R181). -/
theorem spriteBits_pixels_differ (s : State) (count address x y : Nat) (hc : count ≤ 32) :
    (spriteBits s count address x y).Pairwise fun p q => p.1 ≠ q.1 := by
  unfold spriteBits
  rw [List.pairwise_flatMap]
  refine ⟨fun r _ => ?_, ?_⟩
  · rw [List.pairwise_map]
    refine List.Pairwise.imp_of_mem ?_ (List.nodup_range (n := 8))
    intro b c hb hc hbc h
    simp only [List.mem_range, Prod.mk.injEq, Fin.ext_iff, Fin.val_ofNat] at *
    omega
  · refine List.Pairwise.imp_of_mem ?_ (List.nodup_range (n := count))
    intro r q hr hq hrq p hp p' hp' h
    simp only [List.mem_range, List.mem_map] at *
    obtain ⟨b, _, rfl⟩ := hp
    obtain ⟨c, _, rfl⟩ := hp'
    simp only [Prod.mk.injEq, Fin.ext_iff, Fin.val_ofNat] at h
    omega

/-- The plot of a list of bits, one after another. -/
def plotBits (bits : List SpriteBit) (acc : Framebuffer × Bool) : Framebuffer × Bool :=
  bits.foldl (fun acc p => plotBit p.1.1 p.1.2 p.2 acc) acc

theorem drawSprite_eq_plotBits (s : State) (count address x y : Nat) :
    drawSprite s count address x y = plotBits (spriteBits s count address x y) (s.fb, false) := by
  simp only [drawSprite, plotBits, spriteBits, List.foldl_flatMap, List.foldl_map, plotRow]

theorem plotBit_get (row row' : Fin 32) (col col' : Fin 64) (bit : Bool) (acc : Framebuffer × Bool) :
    Framebuffer.get (plotBit row col bit acc).1 row' col' =
      (Framebuffer.get acc.1 row' col' ^^ (bit && decide ((row', col') = (row, col)))) := by
  unfold plotBit
  cases bit
  · simp
  · by_cases h : row' = row ∧ col' = col
    · obtain ⟨rfl, rfl⟩ := h; simp [Framebuffer.get_set]
    · simp [Framebuffer.get_set, h]

theorem plotBit_collision (row : Fin 32) (col : Fin 64) (bit : Bool) (acc : Framebuffer × Bool) :
    (plotBit row col bit acc).2 = (acc.2 || (bit && Framebuffer.get acc.1 row col)) := by
  unfold plotBit
  cases bit <;> simp

/-- A plot inverts exactly the pixels its bits 1 fall on. -/
theorem plotBits_get (bits : List SpriteBit) (acc : Framebuffer × Bool) (row : Fin 32) (col : Fin 64)
    (h : bits.Pairwise fun p q => p.1 ≠ q.1) :
    Framebuffer.get (plotBits bits acc).1 row col =
      (Framebuffer.get acc.1 row col ^^ decide (((row, col), true) ∈ bits)) := by
  induction bits generalizing acc with
  | nil => simp [plotBits]
  | cons p rest ih =>
    rw [List.pairwise_cons] at h
    obtain ⟨⟨r, c⟩, bit⟩ := p
    have hrest := ih (plotBit r c bit acc) h.2
    show Framebuffer.get (plotBits rest (plotBit r c bit acc)).1 row col = _
    rw [hrest, plotBit_get]
    by_cases hp : (row, col) = (r, c)
    · have hn : ((row, col), true) ∉ rest := fun hm => h.1 _ hm hp.symm
      cases bit <;> simp [hp ▸ hn, hp]
    · cases bit <;> simp [hp]

/-- A plot collides exactly when a bit 1 meets a pixel that was 1. -/
theorem plotBits_collision (bits : List SpriteBit) (acc : Framebuffer × Bool)
    (h : bits.Pairwise fun p q => p.1 ≠ q.1) :
    (plotBits bits acc).2 = true ↔
      acc.2 = true ∨ ∃ row col, ((row, col), true) ∈ bits ∧ Framebuffer.get acc.1 row col = true := by
  induction bits generalizing acc with
  | nil => simp [plotBits]
  | cons p rest ih =>
    rw [List.pairwise_cons] at h
    obtain ⟨⟨r, c⟩, bit⟩ := p
    show (plotBits rest (plotBit r c bit acc)).2 = true ↔ _
    rw [ih _ h.2, plotBit_collision]
    have hne : ∀ row col, ((row, col), true) ∈ rest → decide ((row, col) = (r, c)) = false :=
      fun row col hm => by simpa using fun h1 h2 => h.1 _ hm (by rw [h1, h2])
    constructor
    · rintro (h1 | ⟨row, col, hm, hg⟩)
      · rw [Bool.or_eq_true, Bool.and_eq_true] at h1
        rcases h1 with h1 | ⟨rfl, h1⟩
        · exact .inl h1
        · exact .inr ⟨r, c, by simp, h1⟩
      · rw [plotBit_get, hne row col hm] at hg
        exact .inr ⟨row, col, by simp [hm], by simpa using hg⟩
    · rintro (h1 | ⟨row, col, hm, hg⟩)
      · exact .inl (by simp [h1])
      · rcases List.mem_cons.1 hm with he | hm
        · simp only [Prod.mk.injEq] at he
          obtain ⟨⟨rfl, rfl⟩, rfl⟩ := he
          exact .inl (by simp [hg])
        · refine .inr ⟨row, col, hm, ?_⟩
          rw [plotBit_get, hne row col hm]
          simpa using hg

/-- What a sprite plot does to every pixel (44_display.md R181, R183). -/
theorem drawSprite_get (s : State) (count address x y : Nat) (hc : count ≤ 32) (row : Fin 32) (col : Fin 64) :
    Framebuffer.get (drawSprite s count address x y).1 row col = true ↔
      ¬(Framebuffer.get s.fb row col = true ↔ SpriteCovers s count address x y row col) := by
  rw [drawSprite_eq_plotBits, plotBits_get _ _ _ _ (spriteBits_pixels_differ s count address x y hc),
    ← mem_spriteBits]
  cases Framebuffer.get s.fb row col <;> simp

/-- When a sprite plot collides (44_display.md R182). -/
theorem drawSprite_collision (s : State) (count address x y : Nat) (hc : count ≤ 32) :
    (drawSprite s count address x y).2 = true ↔
      ∃ row col, SpriteCovers s count address x y row col ∧ Framebuffer.get s.fb row col = true := by
  rw [drawSprite_eq_plotBits, plotBits_collision _ _ (spriteBits_pixels_differ s count address x y hc)]
  simp [mem_spriteBits]

end Sys2Proof.Machine
end

