-- ==== Sys2Proof/Laws/PerInstr.lean ====
section
/-! SUPPORT. Family FixedBits: the word of every instruction carries the fixed bits of its row of the opcode table
(30_encoding.md R73). -/

namespace Sys2Proof.Laws.FixedBits

/-- The row of the instruction selects its word. -/
def Statement (i : Instr) : Prop := i.row.selects (encode i) = true

theorem cls : Statement (.cls) := rfl

theorem ret : Statement (.ret) := rfl

theorem jp (nnn : Addr12) : Statement (.jp nnn) := by
  simp only [Statement, OpcodeRow.selects, Instr.row, encode, wordNNN_and_F000]; decide

theorem call (nnn : Addr12) : Statement (.call nnn) := by
  simp only [Statement, OpcodeRow.selects, Instr.row, encode, wordNNN_and_F000]; decide

theorem seImm (x : Reg) (kk : Byte) : Statement (.seImm x kk) := by
  simp only [Statement, OpcodeRow.selects, Instr.row, encode, word_and_F000, opField_wordXKK]; decide

theorem sneImm (x : Reg) (kk : Byte) : Statement (.sneImm x kk) := by
  simp only [Statement, OpcodeRow.selects, Instr.row, encode, word_and_F000, opField_wordXKK]; decide

theorem seReg (x y : Reg) : Statement (.seReg x y) := by
  simp only [Statement, OpcodeRow.selects, Instr.row, encode, wordXYN_and_F00F]; decide

theorem ldImm (x : Reg) (kk : Byte) : Statement (.ldImm x kk) := by
  simp only [Statement, OpcodeRow.selects, Instr.row, encode, word_and_F000, opField_wordXKK]; decide

theorem addImm (x : Reg) (kk : Byte) : Statement (.addImm x kk) := by
  simp only [Statement, OpcodeRow.selects, Instr.row, encode, word_and_F000, opField_wordXKK]; decide

theorem ldReg (x y : Reg) : Statement (.ldReg x y) := by
  simp only [Statement, OpcodeRow.selects, Instr.row, encode, wordXYN_and_F00F]; decide

theorem orReg (x y : Reg) : Statement (.orReg x y) := by
  simp only [Statement, OpcodeRow.selects, Instr.row, encode, wordXYN_and_F00F]; decide

theorem andReg (x y : Reg) : Statement (.andReg x y) := by
  simp only [Statement, OpcodeRow.selects, Instr.row, encode, wordXYN_and_F00F]; decide

theorem xorReg (x y : Reg) : Statement (.xorReg x y) := by
  simp only [Statement, OpcodeRow.selects, Instr.row, encode, wordXYN_and_F00F]; decide

theorem addReg (x y : Reg) : Statement (.addReg x y) := by
  simp only [Statement, OpcodeRow.selects, Instr.row, encode, wordXYN_and_F00F]; decide

theorem subReg (x y : Reg) : Statement (.subReg x y) := by
  simp only [Statement, OpcodeRow.selects, Instr.row, encode, wordXYN_and_F00F]; decide

theorem shrReg (x y : Reg) : Statement (.shrReg x y) := by
  simp only [Statement, OpcodeRow.selects, Instr.row, encode, wordXYN_and_F00F]; decide

theorem subnReg (x y : Reg) : Statement (.subnReg x y) := by
  simp only [Statement, OpcodeRow.selects, Instr.row, encode, wordXYN_and_F00F]; decide

theorem shlReg (x y : Reg) : Statement (.shlReg x y) := by
  simp only [Statement, OpcodeRow.selects, Instr.row, encode, wordXYN_and_F00F]; decide

theorem sneReg (x y : Reg) : Statement (.sneReg x y) := by
  simp only [Statement, OpcodeRow.selects, Instr.row, encode, wordXYN_and_F00F]; decide

theorem ldI (nnn : Addr12) : Statement (.ldI nnn) := by
  simp only [Statement, OpcodeRow.selects, Instr.row, encode, wordNNN_and_F000]; decide

theorem jpV0 (nnn : Addr12) : Statement (.jpV0 nnn) := by
  simp only [Statement, OpcodeRow.selects, Instr.row, encode, wordNNN_and_F000]; decide

theorem rnd (x : Reg) (kk : Byte) : Statement (.rnd x kk) := by
  simp only [Statement, OpcodeRow.selects, Instr.row, encode, word_and_F000, opField_wordXKK]; decide

theorem drw (x y : Reg) (n : Fin 16) : Statement (.drw x y n) := by
  simp only [Statement, OpcodeRow.selects, Instr.row, encode, word_and_F000, opField_wordXYN]; decide

theorem skp (x : Reg) : Statement (.skp x) := by
  simp only [Statement, OpcodeRow.selects, Instr.row, encode, wordXKK_and_F0FF]; decide

theorem sknp (x : Reg) : Statement (.sknp x) := by
  simp only [Statement, OpcodeRow.selects, Instr.row, encode, wordXKK_and_F0FF]; decide

theorem ldVxDt (x : Reg) : Statement (.ldVxDt x) := by
  simp only [Statement, OpcodeRow.selects, Instr.row, encode, wordXKK_and_F0FF]; decide

theorem ldVxKey (x : Reg) : Statement (.ldVxKey x) := by
  simp only [Statement, OpcodeRow.selects, Instr.row, encode, wordXKK_and_F0FF]; decide

theorem ldDtVx (x : Reg) : Statement (.ldDtVx x) := by
  simp only [Statement, OpcodeRow.selects, Instr.row, encode, wordXKK_and_F0FF]; decide

theorem ldStVx (x : Reg) : Statement (.ldStVx x) := by
  simp only [Statement, OpcodeRow.selects, Instr.row, encode, wordXKK_and_F0FF]; decide

theorem addI (x : Reg) : Statement (.addI x) := by
  simp only [Statement, OpcodeRow.selects, Instr.row, encode, wordXKK_and_F0FF]; decide

theorem ldFont (x : Reg) : Statement (.ldFont x) := by
  simp only [Statement, OpcodeRow.selects, Instr.row, encode, wordXKK_and_F0FF]; decide

theorem ldBcd (x : Reg) : Statement (.ldBcd x) := by
  simp only [Statement, OpcodeRow.selects, Instr.row, encode, wordXKK_and_F0FF]; decide

theorem storeRegs (x : Reg) : Statement (.storeRegs x) := by
  simp only [Statement, OpcodeRow.selects, Instr.row, encode, wordXKK_and_F0FF]; decide

theorem loadRegs (x : Reg) : Statement (.loadRegs x) := by
  simp only [Statement, OpcodeRow.selects, Instr.row, encode, wordXKK_and_F0FF]; decide

end Sys2Proof.Laws.FixedBits
end

