-- ==== Sys2Proof/Laws/WellFormed.lean ====
section
/-! SUPPORT. The operand types of `Instr` are the ranges of its fields (30_encoding.md R71, R72). -/

namespace Sys2Proof

@[simp] theorem Field.fits_x (x : Reg) : Field.x.fits x.val = true := decide_eq_true x.isLt
@[simp] theorem Field.fits_y (y : Reg) : Field.y.fits y.val = true := decide_eq_true y.isLt
@[simp] theorem Field.fits_n (n : Fin 16) : Field.n.fits n.val = true := decide_eq_true n.isLt
@[simp] theorem Field.fits_kk (kk : Byte) : Field.kk.fits kk.toNat = true := decide_eq_true kk.isLt
@[simp] theorem Field.fits_nnn (nnn : Addr12) : Field.nnn.fits nnn.toNat = true := decide_eq_true nnn.isLt

theorem Instr.wellFormed_all (i : Instr) : i.wellFormed = true := by
  cases i <;> simp [Instr.wellFormed, Instr.operands]

end Sys2Proof
end

