-- ==== Sys2Proof/Tests/Slice0.lean ====
section
/-! SUPPORT. The model's own tests. Expected results are those of 95_test_vectors.md (the V and W numbers) or of the
rule named; `witness_<Name>` shows that the hypotheses of the obligation <Name> can be met, clause by clause. -/

namespace Sys2Proof.Tests

open Sys2Proof Sys2Proof.Machine

/-! ## Helpers -/

/-- The state after reset with some V registers set. -/
def start (vs : List (Reg × Byte)) : State :=
  { State.reset with v := vs.foldl (fun v p => v.set p.1.val p.2) State.reset.v }

def answer (o : Host.Outcome State Fault Refusal) : Option State :=
  match o with
  | .next t => some t
  | .fault _ => none
  | .refused _ => none

/-- One cycle on the word `w` at PC. -/
def cycle (s : State) (w : Nat) : Option State := answer (step (s.withFetchWord 16 w))

theorem eq_next {o : Host.Outcome State Fault Refusal} {t : State} (h : answer o = some t) : o = .next t := by
  cases o <;> simp_all [answer]

theorem exists_next {o : Host.Outcome State Fault Refusal} (h : (answer o).isSome = true) : ∃ t, o = .next t := by
  cases o <;> simp_all [answer]

/-! ## Well-formedness: an ill-formed value for each check -/

theorem test_wf_x_refused : Field.x.fits 16 = false := by decide
theorem test_wf_y_refused : Field.y.fits 16 = false := by decide
theorem test_wf_n_refused : Field.n.fits 16 = false := by decide
theorem test_wf_kk_refused : Field.kk.fits 256 = false := by decide
theorem test_wf_nnn_refused : Field.nnn.fits 4096 = false := by decide
theorem test_wf_key_refused : keyIndexOk 16 = false ∧ keyIndexOk 15 = true := by decide
theorem test_wf_rom_refused : romLengthOk 3585 = false ∧ romLengthOk 3584 = true := by decide
theorem test_wf_accepted : (Instr.drw 15 15 15).wellFormed = true ∧ (Instr.ldI 0xFFF).wellFormed = true := by decide

/-! ## Decoding: each constructor's word, bit by bit from 30_encoding.md R71 and R73 -/

theorem test_decode_family0 : decodeWord true 0b0000_0000_1110_0000 = .ok .cls ∧
    decodeWord true 0b0000_0000_1110_1110 = .ok .ret := by decide
theorem test_decode_jumps : decodeWord true 0b0001_1010_1011_1100 = .ok (.jp 0xABC) ∧
    decodeWord true 0b0010_0011_0000_0001 = .ok (.call 0x301) ∧
    decodeWord true 0b1011_0101_0000_0010 = .ok (.jpV0 0x502) := by decide
theorem test_decode_skips : decodeWord true 0b0011_0001_0000_0101 = .ok (.seImm 1 5) ∧
    decodeWord true 0b0100_0010_0000_0110 = .ok (.sneImm 2 6) ∧
    decodeWord true 0b0101_0001_0010_0000 = .ok (.seReg 1 2) ∧
    decodeWord true 0b1001_0011_0100_0000 = .ok (.sneReg 3 4) := by decide
theorem test_decode_immediates : decodeWord true 0b0110_1010_0000_0010 = .ok (.ldImm 0xA 0x02) ∧
    decodeWord true 0b0111_0001_1000_0001 = .ok (.addImm 1 0x81) ∧
    decodeWord true 0b1100_0001_0000_1111 = .ok (.rnd 1 0x0F) := by decide
theorem test_decode_moves_and_logic : decodeWord true 0b1000_0001_0010_0000 = .ok (.ldReg 1 2) ∧
    decodeWord true 0b1000_0001_0010_0001 = .ok (.orReg 1 2) ∧
    decodeWord true 0b1000_0001_0010_0010 = .ok (.andReg 1 2) ∧
    decodeWord true 0b1000_0001_0010_0011 = .ok (.xorReg 1 2) := by decide
theorem test_decode_arithmetic : decodeWord true 0b1000_0001_0010_0100 = .ok (.addReg 1 2) ∧
    decodeWord true 0b1000_0001_0010_0101 = .ok (.subReg 1 2) ∧
    decodeWord true 0b1000_0001_0010_0110 = .ok (.shrReg 1 2) ∧
    decodeWord true 0b1000_0001_0010_0111 = .ok (.subnReg 1 2) ∧
    decodeWord true 0b1000_0001_0010_1110 = .ok (.shlReg 1 2) := by decide
theorem test_decode_display : decodeWord true 0b1101_0001_0010_0101 = .ok (.drw 1 2 5) := by decide
theorem test_decode_keys_and_timers : decodeWord true 0b1110_0001_1001_1110 = .ok (.skp 1) ∧
    decodeWord true 0b1110_0001_1010_0001 = .ok (.sknp 1) ∧
    decodeWord true 0b1111_0001_0000_0111 = .ok (.ldVxDt 1) ∧
    decodeWord true 0b1111_0011_0000_1010 = .ok (.ldVxKey 3) ∧
    decodeWord true 0b1111_0010_0001_0101 = .ok (.ldDtVx 2) ∧
    decodeWord true 0b1111_0010_0001_1000 = .ok (.ldStVx 2) := by decide
theorem test_decode_index : decodeWord true 0b1010_0011_0000_0001 = .ok (.ldI 0x301) ∧
    decodeWord true 0b1111_0010_0001_1110 = .ok (.addI 2) ∧
    decodeWord true 0b1111_1010_0010_1001 = .ok (.ldFont 0xA) ∧
    decodeWord true 0b1111_1010_0011_0011 = .ok (.ldBcd 0xA) ∧
    decodeWord true 0b1111_0011_0101_0101 = .ok (.storeRegs 3) ∧
    decodeWord true 0b1111_0010_0110_0101 = .ok (.loadRegs 2) := by decide
/-- V6 and R76: words no row assigns, one at least in every family that has any. -/
theorem test_decode_unassigned :
    let ws := [0x0000, 0x0123, 0x00E1, 0x01E0, 0x5121, 0x8008, 0x800F, 0x9121, 0xE000, 0xF0FF, 0xF001]
    ws.map (decodeWord true) = ws.map fun w => .error (.unassigned w) := by decide
/-- V7, V8: the same words when decoding is loose. -/
theorem test_decode_loose : decodeWord false 0x01E0 = .ok .cls ∧ decodeWord false 0x02EE = .ok .ret ∧
    decodeWord false 0x5121 = .ok (.seReg 1 2) ∧ decodeWord false 0x912F = .ok (.sneReg 1 2) ∧
    decodeWord false 0x0123 = .error (.unassigned 0x0123) := by decide
theorem test_decode_bytes : decode true [0x00, 0xEE, 0x12] = .ok (.ret, [0x12]) ∧
    decode true [0x12] = .error .truncated ∧ decode true [] = .error .truncated := by decide
theorem test_table_word : decodeTableWord 16 0x2210 = some (.call 0x210) ∧ decodeTableWord 16 0x0123 = none := by
  decide

/-! ## The cycle -/

/-- V1: 0xFFE is fetchable. -/
theorem test_cycle_last_word : (cycle { State.reset with pc := 0xFFE } 0x6012).map (fun t => (t.v[0], t.pc)) =
    some (0x12, 0x1000) := by decide
/-- V2, V3: the bounds check comes before P_ODD_PC. -/
theorem test_cycle_out_of_bounds : ((answer (step { State.reset with pc := 0x1000 })).map (·.status),
    (answer (step { State.reset with pc := 0xFFF, config := { Config.default with oddPc := .fault } })).map
      fun t => (t.status, t.pc)) =
    (some (.faulted (.fetchOutOfBounds 0x1000)), some (.faulted (.fetchOutOfBounds 0xFFF), 0xFFF)) := by decide
/-- V4: an odd PC under both values of P_ODD_PC. -/
theorem test_cycle_odd_pc : ((cycle { State.reset with pc := 0x201 } 0x6012).map (fun t => (t.v[0], t.pc)),
    (cycle { State.reset with pc := 0x201, config := { Config.default with oddPc := .fault } } 0x6012).map
      fun t => (t.v[0], t.status)) =
    (some (0x12, 0x203), some (0x00, .faulted (.misalignedFetch 0x201))) := by decide
/-- V5, V6: no-ops. -/
theorem test_cycle_unassigned : cycle (start [(1, 7)]) 0xF0FF =
    some { (start [(1, 7)]).withFetchWord 16 0xF0FF with pc := 0x202 } := by decide
/-- With nothing placed the words from 0x200 are 0000, which is a no-op (log entry 9). -/
theorem test_cycle_reset : answer (step State.reset) = some { State.reset with pc := 0x202 } := by decide
/-- V107 -/
theorem test_cycle_faulted : answer (step { State.reset with status := .faulted (.fetchOutOfBounds 0x1000) }) =
    some { State.reset with status := .faulted (.fetchOutOfBounds 0x1000) } := by decide

/-! ## Control transfer -/

/-- V10 -/
theorem test_jp : (cycle State.reset 0x1ABC).map (·.pc) = some 0xABC := by decide
/-- V14 -/
theorem test_call_deepest : (cycle { State.reset with sp := 15, pc := 0x400 } 0x2300).map
    (fun t => (t.stack[15], t.sp, t.pc)) = some (0x402, 16, 0x300) := by decide
/-- V15 -/
theorem test_call_overflow : (cycle { State.reset with sp := 16, pc := 0x400 } 0x2300).map
    (fun t => (t.status, t.sp, t.pc)) = some (.faulted (.stackOverflow 0x400 0x2300), 16, 0x400) := by decide
/-- V16 -/
theorem test_ret : (cycle { State.reset with sp := 1, stack := State.reset.stack.set 0 0x204, pc := 0x216 } 0x00EE).map
    (fun t => (t.sp, t.pc, t.stack[0])) = some (0, 0x204, 0x204) := by decide
/-- V17 -/
theorem test_ret_underflow : (cycle State.reset 0x00EE).map (fun t => (t.status, t.pc)) =
    some (.faulted (.stackUnderflow 0x200 0x00EE), 0x200) := by decide
/-- V19 -/
theorem test_jpV0_largest : (cycle (start [(0, 0xFF)]) 0xBFFF).map (·.pc) = some 0x10FE := by decide
/-- V20 -/
theorem test_jpV0_base : (cycle (start [(0, 0x04), (5, 0x80)]) 0xB500).map (·.pc) = some 0x504 := by decide

/-! ## Skips -/

/-- V21, V22 -/
theorem test_seImm : ((cycle (start [(0, 5)]) 0x3005).map (·.pc), (cycle (start [(0, 6)]) 0x3005).map (·.pc)) =
    (some 0x204, some 0x202) := by decide
/-- V23, V24 -/
theorem test_sneImm : ((cycle (start [(0, 6)]) 0x4005).map (·.pc), (cycle (start [(0, 5)]) 0x4005).map (·.pc)) =
    (some 0x204, some 0x202) := by decide
/-- V25, V26 -/
theorem test_seReg : ((cycle (start [(1, 0x7F), (2, 0x7F)]) 0x5120).map (·.pc),
    (cycle (start [(1, 0x7F), (2, 0x80)]) 0x5120).map (·.pc)) = (some 0x204, some 0x202) := by decide
/-- V27, V28 -/
theorem test_sneReg : ((cycle (start [(1, 0x7F), (2, 0x80)]) 0x9120).map (·.pc),
    (cycle (start [(1, 0x7F), (2, 0x7F)]) 0x9120).map (·.pc)) = (some 0x204, some 0x202) := by decide

/-! ## Loads and ALU -/

/-- V32 -/
theorem test_ldImm : (cycle State.reset 0x6FAB).map (·.v[15]) = some 0xAB := by decide
/-- V33 -/
theorem test_addImm_wraps : (cycle (start [(0, 0xFF), (15, 0x5A)]) 0x7001).map (fun t => (t.v[0], t.v[15])) =
    some (0x00, 0x5A) := by decide
/-- V35 -/
theorem test_ldReg : (cycle (start [(2, 0x33)]) 0x8120).map (fun t => (t.v[1], t.v[2])) = some (0x33, 0x33) := by
  decide
/-- V36 -/
theorem test_orReg : (cycle (start [(1, 0x0F), (2, 0xF0), (15, 0x5A)]) 0x8121).map (fun t => (t.v[1], t.v[15])) =
    some (0xFF, 0x5A) := by decide
/-- V37 -/
theorem test_andReg : (cycle (start [(1, 0x3C), (2, 0x0F), (15, 0x5A)]) 0x8122).map (fun t => (t.v[1], t.v[15])) =
    some (0x0C, 0x5A) := by decide
/-- V38 -/
theorem test_xorReg : (cycle (start [(1, 0xFF), (2, 0x0F), (15, 0x5A)]) 0x8123).map (fun t => (t.v[1], t.v[15])) =
    some (0xF0, 0x5A) := by decide
/-- V41 -/
theorem test_addReg_carry : (cycle (start [(1, 0xFF), (2, 0xFF)]) 0x8124).map (fun t => (t.v[1], t.v[15])) =
    some (0xFE, 1) := by decide
/-- V44, V45: VF as destination, and as operand. -/
theorem test_addReg_vf : ((cycle (start [(15, 0x10), (0, 0x20)]) 0x8F04).map (·.v[15]),
    (cycle (start [(0, 0xFF), (15, 0x01)]) 0x80F4).map fun t => (t.v[0], t.v[15])) =
    (some 0, some (0x00, 1)) := by decide
/-- V46, V47 -/
theorem test_subReg : ((cycle (start [(1, 7), (2, 5)]) 0x8125).map (fun t => (t.v[1], t.v[15])),
    (cycle (start [(1, 5), (2, 7)]) 0x8125).map fun t => (t.v[1], t.v[15])) =
    (some (0x02, 1), some (0xFE, 0)) := by decide
/-- V48, under both values of P_SUB_EQ_FLAG. -/
theorem test_subReg_equal : ((cycle (start [(1, 5), (2, 5)]) 0x8125).map (fun t => (t.v[1], t.v[15])),
    (cycle { start [(1, 5), (2, 5), (15, 9)] with config := { Config.default with subEqFlag := false } } 0x8125).map
      fun t => (t.v[1], t.v[15])) = (some (0x00, 1), some (0x00, 0)) := by decide
/-- V53 and V55, the latter under both values of P_SHIFT_SRC. -/
theorem test_shrReg : ((cycle (start [(3, 5)]) 0x8306).map (fun t => (t.v[3], t.v[15])),
    (cycle (start [(2, 3)]) 0x8126).map (fun t => (t.v[1], t.v[15])),
    (cycle { start [(2, 3)] with config := { Config.default with shiftSrc := .vy } } 0x8126).map
      fun t => (t.v[1], t.v[15])) = (some (2, 1), some (0, 0), some (1, 1)) := by decide
/-- V56 -/
theorem test_shrReg_vf : (cycle (start [(15, 3)]) 0x8F06).map (·.v[15]) = some 1 := by decide
/-- V50, V51 -/
theorem test_subnReg : ((cycle (start [(1, 5), (2, 7)]) 0x8127).map (fun t => (t.v[1], t.v[15])),
    (cycle (start [(1, 7), (2, 5)]) 0x8127).map fun t => (t.v[1], t.v[15])) =
    (some (0x02, 1), some (0xFE, 0)) := by decide
/-- V52, under both values of P_SUB_EQ_FLAG. -/
theorem test_subnReg_equal : ((cycle (start [(1, 9), (2, 9)]) 0x8127).map (fun t => (t.v[1], t.v[15])),
    (cycle { start [(1, 9), (2, 9), (15, 9)] with config := { Config.default with subEqFlag := false } } 0x8127).map
      fun t => (t.v[1], t.v[15])) = (some (0x00, 1), some (0x00, 0)) := by decide
/-- V58, V59 -/
theorem test_shlReg : ((cycle (start [(3, 0x7F)]) 0x830E).map (fun t => (t.v[3], t.v[15])),
    (cycle (start [(3, 0xC1)]) 0x830E).map fun t => (t.v[3], t.v[15])) = (some (0xFE, 0), some (0x82, 1)) := by decide
/-- V60: the effect of RND on a drawn 0xA7. -/
theorem test_rnd_masks : (State.reset.randomAnd 0xA7 1 0x0F).v[1] = 0x07 := by decide
/-- V61: any draw. -/
theorem test_rnd_zero (r : Byte) : (State.reset.randomAnd r 1 0x00).v[1] = 0x00 := by
  simp [State.randomAnd, State.setV]

/-! ## Index register and memory -/

/-- V63 -/
theorem test_ldI : (cycle State.reset 0xAFFF).map (·.i) = some 0x0FFF := by decide
/-- V64, V65: not masked, and the largest sum. -/
theorem test_addI : ((cycle { start [(0, 1)] with i := 0xFFF } 0xF01E).map (·.i),
    (cycle { start [(0, 0x0F), (15, 9)] with i := 0xFFF0 } 0xF01E).map fun t => (t.i, t.v[15])) =
    (some 0x1000, some (0xFFFF, 9)) := by decide
/-- V66 -/
theorem test_addI_overflow : (cycle { start [(0, 1)] with i := 0xFFFF } 0xF01E).map (fun t => (t.status, t.i)) =
    some (.faulted (.iOverflow 0xFFFF 0x01 0x200 0xF01E), 0xFFFF) := by decide
/-- V67, V69 -/
theorem test_ldFont : ((cycle (start [(0, 0x0F)]) 0xF029).map (·.i), (cycle (start [(0, 0xFF)]) 0xF029).map (·.i)) =
    (some 0x004B, some 0x04FB) := by decide
/-- The example of 43_index_and_memory.md R163. -/
theorem test_ldBcd : (cycle { start [(10, 0x9C)] with i := 0x300 } 0xFA33).map
    (fun t => ([t.readByte 0x300, t.readByte 0x301, t.readByte 0x302, t.readByte 0x303], t.i)) =
    some ([1, 5, 6, 0], 0x300) := by decide
/-- V74, V75 -/
theorem test_ldBcd_out_of_bounds : ((cycle { State.reset with i := 0xFFE } 0xF033).map (·.status),
    (cycle { State.reset with i := 0x2000 } 0xF033).map (·.status)) =
    (some (.faulted (.memOutOfBounds 0x1000 0x200 0xF033)),
      some (.faulted (.memOutOfBounds 0x2000 0x200 0xF033))) := by decide
/-- The example of 43_index_and_memory.md R164, with a V2 that is not stored. -/
theorem test_storeRegs : (cycle { start [(0, 0x11), (1, 0x22), (2, 0x33)] with i := 0x400 } 0xF155).map
    (fun t => ([t.readByte 0x400, t.readByte 0x401, t.readByte 0x402], t.i)) = some ([0x11, 0x22, 0], 0x400) := by
  decide
/-- V78 -/
theorem test_storeRegs_out_of_bounds : (cycle { start [(0, 7)] with i := 0xFF1 } 0xFF55).map
    (fun t => (t.status, t.readByte 0xFF1)) = some (.faulted (.memOutOfBounds 0x1000 0x200 0xFF55), 0) := by decide
/-- The example of 43_index_and_memory.md R165, with a V3 that is not loaded. -/
theorem test_loadRegs : (cycle { start [(3, 0x77)] with i := 0x300, mem := [(0x300, 1), (0x301, 5), (0x302, 6),
      (0x303, 7)] } 0xF265).map (fun t => ([t.v[0], t.v[1], t.v[2], t.v[3]], t.i)) =
    some ([1, 5, 6, 0x77], 0x300) := by decide
/-- V80 -/
theorem test_loadRegs_out_of_bounds : (cycle { State.reset with i := 0x1000 } 0xF065).map (·.status) =
    some (.faulted (.memOutOfBounds 0x1000 0x200 0xF065)) := by decide

/-! ## Display -/

/-- A screen with one pixel set. -/
def onePixel (row : Fin 32) (col : Fin 64) : Framebuffer :=
  Vector.set Framebuffer.blank row.val (Framebuffer.blank[row.val].set col.val true)

/-- V81 -/
theorem test_cls : (cycle { start [(15, 0x5A)] with fb := onePixel 31 63 } 0x00E0).map
    (fun t => (t.fb[31][63], t.v[15], t.pc)) = some (false, 0x5A, 0x202) := by decide
/-- V82, V83: an erased pixel is a collision, a pixel set beside it is not. -/
theorem test_drw_collision : ((cycle { State.reset with fb := onePixel 0 0, i := 0x300, mem := [(0x300, 0x80)] }
      0xD011).map (fun t => (t.fb[0][0], t.v[15])),
    (cycle { State.reset with fb := onePixel 0 0, i := 0x300, mem := [(0x300, 0x40)] } 0xD011).map
      fun t => (t.fb[0][0], t.fb[0][1], t.v[15])) = (some (false, 1), some (true, true, 0)) := by decide
/-- The sprite of program P4 over the corner of the screen: the row wraps to 0 and the columns to 4 and 5, each on
its own. -/
theorem test_drw_wraps : (cycle { start [(0, 62), (1, 31)] with i := 0x300, mem := [(0x300, 0xC3), (0x301, 0x81)] }
      0xD012).map (fun t => (t.fb[31].toList.findIdxs id, t.fb[0].toList.findIdxs id, t.v[15])) =
    some ([4, 5, 62, 63], [5, 62], 0) := by decide

/-! ## Keypad and timers -/

/-- V90, V91 -/
theorem test_skp : ((cycle { start [(1, 7)] with keys := State.reset.keys.set 7 true } 0xE19E).map (·.pc),
    (cycle (start [(1, 7)]) 0xE19E).map (·.pc)) = (some 0x204, some 0x202) := by decide
/-- V94 -/
theorem test_skp_out_of_range : (cycle (start [(1, 0x10)]) 0xE19E).map (·.status) =
    some (.faulted (.keyOutOfRange 0x10 0x200 0xE19E)) := by decide
/-- V92, V93 -/
theorem test_sknp : ((cycle (start [(1, 7)]) 0xE1A1).map (·.pc),
    (cycle { start [(1, 7)] with keys := State.reset.keys.set 7 true } 0xE1A1).map (·.pc)) =
    (some 0x204, some 0x202) := by decide
/-- V95 -/
theorem test_ldVxKey_waits : cycle State.reset 0xF30A = some (State.reset.withFetchWord 16 0xF30A) := by decide
/-- V96, under both values of P_KEYWAIT_PICK. -/
theorem test_ldVxKey_picks :
    ((cycle { State.reset with keys := (State.reset.keys.set 3 true).set 9 true } 0xF30A).map
      (fun t => (t.v[3], t.pc)),
    (cycle { State.reset with
      keys := (State.reset.keys.set 3 true).set 9 true
      config := { Config.default with keyWaitPick := .lowest } } 0xF30A).map fun t => (t.v[3], t.pc)) =
    (some (9, 0x202), some (3, 0x202)) := by decide
/-- V98 -/
theorem test_ldVxDt : (cycle { State.reset with dt := 7, st := 9 } 0xF107).map (·.v[1]) = some 7 := by decide
/-- V99 -/
theorem test_ldDtVx : (cycle (start [(0, 9)]) 0xF015).map (fun t => (t.dt, t.st)) = some (9, 0) := by decide
/-- V100 -/
theorem test_ldStVx : (cycle (start [(2, 3)]) 0xF218).map (fun t => (t.st, t.dt, t.soundActive)) =
    some (3, 0, true) := by decide

/-! ## Host events -/

/-- V102 -/
theorem test_tick : (answer (applyEvent .tick { State.reset with st := 2 })).map
    (fun t => (t.dt, t.st, t.soundActive)) = some (0, 1, true) := by decide
/-- V106 -/
theorem test_keys : (answer (runEvents [.keyDown 5, .keyUp 5] State.reset)).map (·.keys[5]) = some false := by decide
/-- 60_exceptions.md R230 and R235: endless ticks on DT = 2, after two events and after three. -/
theorem test_stream : ((answer (runStream (fun _ => .tick) { State.reset with dt := 2 } 2)).map (·.dt),
    (answer (runStream (fun _ => .tick) { State.reset with dt := 2, st := 9 } 3)).map fun t => (t.dt, t.st)) =
    (some 0, some (0, 6)) := by decide
/-- 60_exceptions.md R233: on a Running core a key event above 15 has no move. -/
theorem test_key_above_15 : answer (applyEvent (.keyDown 16) State.reset) = none ∧
    Event.admitted (.keyDown 16) = false ∧ Event.admitted (.keyUp 15) = true := by decide
/-- 60_exceptions.md R232 -/
theorem test_load : (answer (applyEvent (.loadRom [0x6A, 0x02]) State.reset)).map
    (fun t => (t.readByte 0x200, t.readByte 0x201, t.readByte 0x202)) = some (0x6A, 0x02, 0x00) := by decide

/-! ## Witnesses -/

theorem witness_StrictDecodeIsTheOpcodeTable :
    (∃ (w : Word) (i j : Instr), i.row.selects w = true ∧ j.row.selects w = true) ∧
    ∃ w : Word, ∀ i : Instr, i.row.selects w = false :=
  ⟨⟨0x8FFE, .shlReg 0 0, .shlReg 15 15, by decide⟩, 0x800F, fun i => by cases i <;> simp [Instr.row, OpcodeRow.selects]⟩

theorem witness_LooseDecodeFollowsTheProse :
    opField 0x0FE0 = 0 ∧ opField 0x5FFF = 5 ∧ opField 0x9FFF = 9 ∧
    (opField 0xFFFF ≠ 0 ∧ opField 0xFFFF ≠ 5 ∧ opField 0xFFFF ≠ 9) := by decide

theorem witness_UnassignedWordsAreNoOps : ∃ s : State, s.Running ∧ s.CanFetch ∧
    decodeWord s.config.strictDecode s.instrWord = .error (.unassigned s.instrWord) :=
  ⟨State.reset.withFetchWord 16 0x800F, by decide⟩

theorem witness_StepRunsTheDecodedInstruction : ∃ (s : State) (i : Instr), s.Running ∧ s.CanFetch ∧
    decodeWord s.config.strictDecode
      (s.readByte s.pc.toNat ++ s.readByte (s.pc.toNat + 1) : BitVec (8 + 8)) = .ok i :=
  ⟨{ State.reset with pc := 0xFFE, mem := [(0xFFE, 0x6A), (0xFFF, 0x02)] }, .ldImm 10 2, by decide⟩

theorem witness_FetchChecks :
    (∃ s : State, s.Running ∧ 0xFFE < s.pc.toNat) ∧
    (∃ s : State, s.Running ∧ s.pc.toNat ≤ 0xFFE ∧ s.config.oddPc = .fault ∧ s.pc.toNat % 2 = 1) ∧
    ∃ s : State, s.Running ∧ s.pc.toNat ≤ 0xFFE ∧ (s.config.oddPc = .execute ∨ s.pc.toNat % 2 = 0) :=
  ⟨⟨{ State.reset with pc := 0xFFF }, by decide⟩,
    ⟨{ State.reset with pc := 0xFFD, config := { Config.default with oddPc := .fault } }, by decide⟩,
    { State.reset with pc := 0xFFE }, by decide⟩

theorem witness_PlacedWordRunsNext : ∃ (s : State) (w : Word) (i : Instr), s.Running ∧ s.CanFetch ∧
    decodeWord s.config.strictDecode w = .ok i :=
  ⟨{ State.reset with pc := 0xFFE }, 0x00EE, .ret, by decide⟩

theorem witness_StoredCodeRunsNext : ∃ (s t : State) (x : Reg) (i : Instr), s.Running ∧ s.CanFetch ∧ 1 ≤ x.val ∧
    s.i = s.pc + 2 ∧ s.i.toNat + x.val ≤ 0xFFF ∧
    decodeWord s.config.strictDecode (wordOfBytes s.v[0] s.v[1]) = .ok i ∧ exec (.storeRegs x) s = .next t :=
  have ⟨t, h⟩ := exists_next (o := exec (.storeRegs 1) { start [(0, 0x12), (1, 0x34)] with pc := 0xFFC, i := 0xFFE })
    (by decide)
  ⟨_, t, 1, .jp 0x234, by decide, by decide, by decide, by decide, by decide, by decide, h⟩

theorem witness_PcAfterEveryInstruction :
    (∃ (i : Instr) (s t : State), s.Running ∧ exec i s = .next t ∧ t.Running) ∧
    ∃ (i : Instr) (s t : State), s.Running ∧ exec i s = .next t ∧ ¬t.Running :=
  ⟨⟨.jp 0xFFF, State.reset, { State.reset with pc := 0xFFF }, by decide, eq_next (by decide), by decide⟩,
    .ret, State.reset, State.reset.raise (.stackUnderflow 0x200 0), by decide, eq_next (by decide), by decide⟩

theorem witness_FaultsArePrecise :
    (∃ (s t : State) (f : Fault), s.Running ∧ step s = .next t ∧ t.status = .faulted f ∧ f.code = 1) ∧
    ∃ (s t : State) (f : Fault), s.Running ∧ step s = .next t ∧ t.status = .faulted f ∧ f.code = 4 :=
  ⟨⟨{ State.reset with pc := 0xFFF }, { State.reset with pc := 0xFFF }.raise (.fetchOutOfBounds 0xFFF), _, by decide,
      eq_next (by decide), rfl, rfl⟩,
    State.reset.withFetchWord 16 0xEE,
    (State.reset.withFetchWord 16 0xEE).raise (.stackUnderflow 0x200 0x00EE), _, by decide, eq_next (by decide), rfl,
    rfl⟩

theorem witness_EachInstructionRaisesItsOwnCause : ∃ (i : Instr) (s t : State) (f : Fault), s.Running ∧
    exec i s = .next t ∧ t.status = .faulted f :=
  ⟨.ret, State.reset, State.reset.raise (.stackUnderflow 0x200 0), _, by decide, eq_next (by decide), rfl⟩

theorem witness_FaultedCoreIsTerminal : ∃ (s : State) (f : Fault), s.status = .faulted f :=
  ⟨State.reset.raise (.fetchOutOfBounds 0x1000), _, rfl⟩

theorem witness_MachineNeverStops : ∀ k, Event.keyDown 15 = .keyDown k ∨ Event.keyDown 15 = .keyUp k → k ≤ 15 := by
  simp

theorem witness_InvariantIsKept : ∃ (s t u : State) (events : List Event), s.Inv ∧ step s = .next t ∧
    runEvents events s = .next u :=
  ⟨State.reset, { State.reset with pc := 0x202 }, { State.reset with pc := 0x202 }, [.tick, .cycle], by decide,
    eq_next (by decide), eq_next (by decide)⟩

theorem witness_CallPushesThenJumps :
    (∃ s : State, s.sp.val < 16 ∧ s.sp.val = 15) ∧ ∃ s : State, s.sp.val = 16 :=
  ⟨⟨{ State.reset with sp := 15 }, by decide⟩, { State.reset with sp := 16 }, rfl⟩

theorem witness_ReturnPops : (∃ s : State, 0 < s.sp.val ∧ s.sp.val = 1) ∧ ∃ s : State, s.sp.val = 0 :=
  ⟨⟨{ State.reset with sp := 1 }, by decide⟩, State.reset, rfl⟩

theorem witness_CallThenReturnComesBack : ∃ (nnn : Addr12) (s t u : State), s.sp.val < 16 ∧
    exec (.call nnn) s = .next t ∧ u.sp = t.sp ∧ u.stack = t.stack :=
  have ⟨t, h⟩ := exists_next (o := exec (.call 0x300) { State.reset with sp := 15 }) (by decide)
  ⟨0x300, _, t, t, by decide, h, rfl, rfl⟩

theorem witness_SkipsOnRegisters :
    (∃ (strict : Bool) (n : Fin 16), (n = 0 ∨ strict = false) ∧ strict = true) ∧
    ∃ (strict : Bool) (n : Fin 16), (n = 0 ∨ strict = false) ∧ n = 15 :=
  ⟨⟨true, 0, by decide⟩, false, 15, by decide⟩

theorem witness_RandomAndMask : (0x0F : Byte).getLsbD 4 = false ∧ (0x0F : Byte).getLsbD 7 = false := by decide

theorem witness_IndexAddFaultsOnOverflow :
    (∃ (x : Reg) (s : State), s.i.toNat + s.v[x.val].toNat = 0xFFFF) ∧
    ∃ (x : Reg) (s : State), s.i.toNat + s.v[x.val].toNat = 0x10000 :=
  ⟨⟨0, { State.reset with i := 0xFFFF }, by decide⟩, 0, { start [(0, 1)] with i := 0xFFFF }, by decide⟩

theorem witness_BcdStoresThreeDigits :
    (∃ s : State, s.i.toNat + 2 = 0xFFF) ∧ ∃ s : State, s.i.toNat + 2 = 0x1000 :=
  ⟨⟨{ State.reset with i := 0xFFD }, by decide⟩, { State.reset with i := 0xFFE }, by decide⟩

theorem witness_StoreRegistersToMemory :
    (∃ (x : Reg) (s : State), s.i.toNat + x.val = 0xFFF) ∧ ∃ (x : Reg) (s : State), s.i.toNat + x.val = 0x1000 :=
  ⟨⟨15, { State.reset with i := 0xFF0 }, by decide⟩, 15, { State.reset with i := 0xFF1 }, by decide⟩

theorem witness_LoadRegistersFromMemory :
    (∃ (x : Reg) (s : State), s.i.toNat + x.val = 0xFFF) ∧ ∃ (x : Reg) (s : State), s.i.toNat + x.val = 0x1000 :=
  ⟨⟨0, { State.reset with i := 0xFFF }, by decide⟩, 0, { State.reset with i := 0x1000 }, by decide⟩

theorem witness_StoreThenLoadRestores : ∃ (x : Reg) (s t u : State), s.i.toNat + x.val ≤ 0xFFF ∧
    exec (.storeRegs x) s = .next t ∧ u.i = s.i ∧ ∀ a, u.readByte a = t.readByte a :=
  have ⟨t, h⟩ := exists_next (o := exec (.storeRegs 15) { start [(0, 7)] with i := 0xFF0 }) (by decide)
  ⟨15, _, t, { t with i := 0xFF0 }, by decide, h, rfl, fun _ => rfl⟩

theorem witness_DrawXorsWrapsAndReportsCollision :
    (∃ (n : Fin 16) (s : State), n.val = 0 ∧ s.i = 0xFFFF) ∧
    (∃ (n : Fin 16) (s : State), n.val ≠ 0 ∧ s.i.toNat + n.val = 0x1000) ∧
    ∃ (n : Fin 16) (s : State), n.val ≠ 0 ∧ s.i.toNat + n.val = 0x1001 :=
  ⟨⟨0, { State.reset with i := 0xFFFF }, by decide⟩, ⟨1, { State.reset with i := 0xFFF }, by decide⟩,
    2, { State.reset with i := 0xFFF }, by decide⟩

theorem witness_DrawingTwiceRestores : ∃ (x y : Reg) (n : Fin 16) (s t u : State),
    (n.val = 0 ∨ s.i.toNat + n.val ≤ 0x1000) ∧ exec (.drw x y n) s = .next t ∧ t.v[x.val] = s.v[x.val] ∧
    t.v[y.val] = s.v[y.val] ∧ exec (.drw x y n) t = .next u :=
  have e (s : State) (h : (answer (exec (.drw 0 1 1) s)).isSome = true) := exists_next h
  have hs : (answer (exec (.drw 0 1 1) { State.reset with i := 0xFFF })).map (fun t => (t.v[0], t.v[1], t.i)) =
    some (0, 0, 0xFFF) := by decide
  have ⟨t, h⟩ := e { State.reset with i := 0xFFF } (by decide)
  have ht : (t.v[0], t.v[1], t.i) = (0, 0, 0xFFF) := by rw [h] at hs; exact Option.some.inj hs
  have ⟨u, hu⟩ : ∃ u, exec (.drw 0 1 1) t = .next u := by
    have hi : t.i = 0xFFF := (Prod.mk.inj (Prod.mk.inj ht).2).2
    exact ⟨_, by simp only [exec, execDrw, hi]; rfl⟩
  ⟨0, 1, 1, _, t, u, by decide, h, (Prod.mk.inj ht).1, (Prod.mk.inj (Prod.mk.inj ht).2).1, hu⟩

theorem witness_SkipsOnKeys :
    (∃ (x : Reg) (s : State), s.v[x.val].toNat < 16 ∧ s.v[x.val] = 15) ∧
    ∃ (x : Reg) (s : State), 15 < s.v[x.val].toNat ∧ s.v[x.val] = 16 :=
  ⟨⟨1, start [(1, 15)], by decide⟩, 1, start [(1, 16)], by decide⟩

theorem witness_KeyWaitTakesAKeyDown :
    (∃ s : State, ∀ k : Fin 16, s.keys[k.val] = false) ∧
    (∃ (s : State) (k : Fin 16), s.config.keyWaitPick = .highest ∧ s.keys[k.val] = true ∧
      ∀ j : Fin 16, s.keys[j.val] = true → if s.config.keyWaitPick = .highest then j ≤ k else k ≤ j) ∧
    ∃ (s : State) (k : Fin 16), s.config.keyWaitPick = .lowest ∧ s.keys[k.val] = true ∧
      ∀ j : Fin 16, s.keys[j.val] = true → if s.config.keyWaitPick = .highest then j ≤ k else k ≤ j :=
  ⟨⟨State.reset, by decide⟩,
    ⟨{ State.reset with keys := (State.reset.keys.set 0 true).set 15 true }, 15, by decide⟩,
    { State.reset with
      keys := (State.reset.keys.set 0 true).set 15 true
      config := { Config.default with keyWaitPick := .lowest } }, 0, by decide⟩

theorem witness_KeyWaitSpinsUntilAKey : ∃ (s : State) (x : Reg), s.Running ∧ s.CanFetch ∧
    decodeWord s.config.strictDecode s.instrWord = .ok (.ldVxKey x) ∧ ∀ k : Fin 16, s.keys[k.val] = false :=
  ⟨State.reset.withFetchWord 16 0xFF0A, 15, by decide⟩

theorem witness_TickCountsBothTimersDown :
    (∃ s : State, s.Running ∧ s.dt = 0 ∧ s.st = 0) ∧ ∃ s : State, s.Running ∧ s.dt = 255 ∧ s.st = 1 :=
  ⟨⟨State.reset, by decide⟩, { State.reset with dt := 255, st := 1 }, by decide⟩

theorem witness_KeyEventsSetOneKey :
    (∃ (s : State) (k : Nat), s.Running ∧ k < 16 ∧ k = 15) ∧ ∃ (s : State) (k : Nat), s.Running ∧ 15 < k ∧ k = 16 :=
  ⟨⟨State.reset, 15, by decide⟩, State.reset, 16, by decide⟩

theorem witness_RomLoadCopiesOrRejects :
    (∃ (s : State) (bytes : List Byte), s.Running ∧ bytes.length = 3584) ∧
    ∃ (s : State) (bytes : List Byte), s.Running ∧ bytes.length = 3585 :=
  ⟨⟨State.reset, List.replicate 3584 0, rfl, List.length_replicate⟩,
    State.reset, List.replicate 3585 0, rfl, List.length_replicate⟩

theorem witness_OnlyCyclesRaiseFaults : ∃ (events : List Event) (s : State), s.Running ∧ events ≠ [] ∧
    ∀ e ∈ events, e ≠ .cycle ∧ ∀ k, e = .keyDown k ∨ e = .keyUp k → k ≤ 15 :=
  ⟨[.keyDown 15, .tick, .loadRom []], State.reset, by decide, by decide, by simp⟩

theorem witness_OnlyNamedRegistersChange : ∃ (i : Instr) (s t : State) (j : Reg), exec i s = .next t ∧
    ¬WritesV i j :=
  have ⟨t, h⟩ := exists_next (o := exec (.addReg 1 2) State.reset) (by decide)
  ⟨.addReg 1 2, State.reset, t, 14, h, show ¬((14 : Reg) = 1 ∨ (14 : Reg) = VF) by decide⟩

theorem witness_OnlyStoresChangeMemory : ∃ (i : Instr) (s t : State) (a : Nat), exec i s = .next t ∧
    StoredLength i = 3 ∧ a = s.i.toNat + 3 ∧ ¬(s.i.toNat ≤ a ∧ a < s.i.toNat + StoredLength i) :=
  have ⟨t, h⟩ := exists_next (o := exec (.ldBcd 1) { State.reset with i := 0x300 }) (by decide)
  ⟨.ldBcd 1, _, t, 0x303, h, by decide, by decide, by decide⟩

theorem witness_OnlyNamedSpecialRegistersChange : ∃ (i : Instr) (s t : State), exec i s = .next t ∧ t.sp ≠ s.sp :=
  ⟨.call 0x300, State.reset, { State.reset with sp := 1, stack := State.reset.stack.set 0 0x202, pc := 0x300 },
    eq_next (by decide), by decide⟩

theorem witness_OnlyNamedDevicesChange : ∃ (i : Instr) (s t : State), exec i s = .next t ∧ t.fb ≠ s.fb :=
  ⟨.cls, { State.reset with fb := onePixel 0 0 }, { State.reset with pc := 0x202 }, eq_next (by decide), by decide⟩

theorem witness_SoundTimerIsNeverRead : ∃ (i : Instr) (s t : State), exec i s = .next t ∧ t.st ≠ s.st :=
  ⟨.ldStVx 1, start [(1, 9)], { start [(1, 9)] with st := 9, pc := 0x202 }, eq_next (by decide), by decide⟩

theorem witness_FreeStackSlotsAreNeverRead : ∃ (i : Instr) (s t : State) (k : Vector Word 16), exec i s = .next t ∧
    (∀ j : Fin 16, j.val < s.sp.val → k[j.val] = s.stack[j.val]) ∧ k ≠ s.stack :=
  ⟨.call 0x300, State.reset, { State.reset with sp := 1, stack := State.reset.stack.set 0 0x202, pc := 0x300 },
    Vector.replicate 16 7, eq_next (by decide), by decide, by decide⟩

theorem witness_EveryEventSequenceHasARun :
    (∃ events : List Event, events ≠ [] ∧ ∀ e ∈ events, e.admitted = true) ∧
    ∃ (events : Nat → Event) (s : State), (∀ n, (events n).admitted = true) ∧ s.Inv ∧ events 0 ≠ events 1 :=
  ⟨⟨[.keyDown 15, .cycle, .loadRom []], by decide, by decide⟩,
    fun n => if n = 0 then .keyUp 15 else .cycle, State.reset, fun n => by cases n <;> rfl, by decide, by decide⟩

end Sys2Proof.Tests
end

section
/-! SUPPORT. Fetch and dispatch (20_memory.md R53, 40_cycle_and_control.md R100). -/

namespace Sys2Proof.Machine

/-- The byte at PC is the high half of the fetched word, the byte after it the low half (20_memory.md R53). -/
theorem State.instrWord_eq_append (s : State) :
    s.instrWord = (s.readByte s.pc.toNat ++ s.readByte (s.pc.toNat + 1) : BitVec (8 + 8)) := rfl

/-- A cycle that passes the status check and the fetch checks, and whose word decodes, is the execution of the
decoded instruction (40_cycle_and_control.md R100). -/
theorem step_eq_exec {s : State} {i : Instr} (hrun : s.Running) (hfetch : s.CanFetch)
    (hdec : decodeWord s.config.strictDecode s.instrWord = .ok i) : step s = exec i s := by
  have hnofault : s.fetchFault? = none := fetchFault?_eq_none.mpr hfetch
  simp only [step, hrun, hnofault, hdec]

/-- Settles O6: the two bytes at PC are the fetched word, and a cycle executes what that word decodes to. -/
theorem stepRunsTheDecodedInstruction : Obligations.StepRunsTheDecodedInstruction := by
  intro s i hrun hfetch hdec
  rw [← s.instrWord_eq_append] at hdec
  exact step_eq_exec hrun hfetch hdec

end Sys2Proof.Machine
end

section
/-! SUPPORT. What the decoder answers, by the fields of the word (30_encoding.md R73 to R76). -/

namespace Sys2Proof

section fieldsOfAWord

variable {w : Word}

/-! A word with a known op, and a known n or kk, is the word of that format built from its other fields. -/

theorem wordXYN_eq_of_fields {op : BitVec 4} {n : Fin 16} (hop : opField w = op.toNat)
    (hn : (nField w).val = n.val) : wordXYN op (xField w) (yField w) n = w := by
  conv_rhs => rw [eq_wordXYN w, hop, BitVec.ofNat_toNat, BitVec.setWidth_eq, Fin.ext hn]

theorem wordXKK_eq_of_fields {op : BitVec 4} {kk : Byte} (hop : opField w = op.toNat)
    (hkk : (kkField w).toNat = kk.toNat) : wordXKK op (xField w) kk = w := by
  conv_rhs => rw [eq_wordXKK w, hop, BitVec.ofNat_toNat, BitVec.setWidth_eq, BitVec.eq_of_toNat_eq hkk]

theorem wordNNN_eq_of_field {op : BitVec 4} (hop : opField w = op.toNat) : wordNNN op (nnnField w) = w := by
  conv_rhs => rw [eq_wordNNN w, hop, BitVec.ofNat_toNat, BitVec.setWidth_eq]

/-- A word of op 0 is a zero-extended byte exactly when x is 0 too. -/
theorem eq_setWidth_iff {kk : Byte} (hop : opField w = 0) :
    w = kk.setWidth 16 ↔ xField w = 0 ∧ kkField w = kk := by
  rw [← BitVec.toNat_inj, ← BitVec.toNat_inj, Fin.ext_iff, xField_val, kkField_toNat, BitVec.toNat_setWidth]
  rw [opField_eq] at hop
  have := kk.isLt
  simp only [Fin.val_zero]
  omega

end fieldsOfAWord

theorem opField_lt (w : Word) : opField w < 16 := (w.extractLsb' 12 4).isLt

@[simp] theorem opField_mod (w : Word) : opField w % 16 = opField w := Nat.mod_eq_of_lt (opField_lt w)

section selection

variable {w p : Word}

/-! What a row of each of the four masks selects: the words that have the fixed fields of the row's pattern. -/

theorem selects_FFFF : OpcodeRow.selects ⟨0xFFFF, p⟩ w = true ↔ w = p := by
  have hmask (v : Word) : v &&& 0xFFFF = v := BitVec.and_allOnes
  simp only [OpcodeRow.selects, hmask, beq_iff_eq]

theorem selects_F000 : OpcodeRow.selects ⟨0xF000, p⟩ w = true ↔ opField w = opField p := by
  simp only [OpcodeRow.selects, word_and_F000, beq_iff_eq]
  exact ⟨fun h => by simpa using congrArg opField h, fun h => by rw [h]⟩

theorem selects_F00F :
    OpcodeRow.selects ⟨0xF00F, p⟩ w = true ↔ opField w = opField p ∧ nField w = nField p := by
  simp only [OpcodeRow.selects, word_and_F00F, beq_iff_eq]
  exact ⟨fun h => ⟨by simpa using congrArg opField h, by simpa using congrArg nField h⟩,
    fun ⟨hop, hn⟩ => by rw [hop, hn]⟩

theorem selects_F0FF :
    OpcodeRow.selects ⟨0xF0FF, p⟩ w = true ↔ opField w = opField p ∧ kkField w = kkField p := by
  simp only [OpcodeRow.selects, word_and_F0FF, beq_iff_eq]
  exact ⟨fun h => ⟨by simpa using congrArg opField h, by simpa using congrArg kkField h⟩,
    fun ⟨hop, hkk⟩ => by rw [hop, hkk]⟩

end selection

/-- The row of an instruction selects the instruction's word. -/
theorem Instr.row_selects_encode (i : Instr) : i.row.selects (encode i) = true := by
  cases i
  case cls | ret => exact selects_FFFF.2 rfl
  case jp | call | ldI | jpV0 => exact selects_F000.2 (opField_wordNNN ..)
  case seImm | sneImm | ldImm | addImm | rnd => exact selects_F000.2 (opField_wordXKK ..)
  case drw => exact selects_F000.2 (opField_wordXYN ..)
  case seReg | ldReg | orReg | andReg | xorReg | addReg | subReg | shrReg | subnReg | shlReg | sneReg =>
    exact selects_F00F.2 ⟨opField_wordXYN .., nField_wordXYN ..⟩
  case skp | sknp | ldVxDt | ldVxKey | ldDtVx | ldStVx | addI | ldFont | ldBcd | storeRegs | loadRegs =>
    exact selects_F0FF.2 ⟨opField_wordXKK .., kkField_wordXKK ..⟩

/-! ## The families of the decoder -/

section families

variable {w : Word} (strict : Bool)

theorem decodeWord_op0 (hop : opField w = 0) : decodeWord strict w = decodeFamily0 strict w := by
  simp only [decodeWord, hop]

theorem decodeWord_op5 (hop : opField w = 5) :
    decodeWord strict w = decodeFixedN strict w (.seReg (xField w) (yField w)) := by
  simp only [decodeWord, hop]

theorem decodeWord_op8 (hop : opField w = 8) : decodeWord strict w = decodeFamily8 w := by
  simp only [decodeWord, hop]

theorem decodeWord_op9 (hop : opField w = 9) :
    decodeWord strict w = decodeFixedN strict w (.sneReg (xField w) (yField w)) := by
  simp only [decodeWord, hop]

theorem decodeWord_opE (hop : opField w = 0xE) : decodeWord strict w = decodeFamilyE w := by
  simp only [decodeWord, hop]

theorem decodeWord_opF (hop : opField w = 0xF) : decodeWord strict w = decodeFamilyF w := by
  simp only [decodeWord, hop]

/-- Loose decoding does not look at x in family 0 (30_encoding.md R75). -/
theorem decodeFamily0_false (w : Word) : decodeFamily0 false w =
    if kkField w = 0xE0 then .ok .cls else if kkField w = 0xEE then .ok .ret else .error (.unassigned w) := by
  rw [decodeFamily0, Bool.false_and, if_neg Bool.false_ne_true]
  split
  case h_1 hkk => rw [if_pos (BitVec.eq_of_toNat_eq hkk)]
  case h_2 hkk => rw [BitVec.eq_of_toNat_eq (y := (0xEE : Byte)) hkk, if_neg (by decide), if_pos rfl]
  case h_3 hE0 hEE => rw [if_neg fun h => hE0 (congrArg _ h), if_neg fun h => hEE (congrArg _ h)]

/-- Strict decoding knows 00E0 and 00EE only (30_encoding.md R74). -/
theorem decodeFamily0_true (hop : opField w = 0) : decodeFamily0 true w =
    if w = 0x00E0 then .ok .cls else if w = 0x00EE then .ok .ret else .error (.unassigned w) := by
  have hE0 : w = 0x00E0 ↔ _ := eq_setWidth_iff (kk := 0xE0) hop
  have hEE : w = 0x00EE ↔ _ := eq_setWidth_iff (kk := 0xEE) hop
  by_cases hx : xField w = 0
  · have hloose : decodeFamily0 true w = decodeFamily0 false w := by simp [decodeFamily0, hx]
    simp only [hloose, decodeFamily0_false, hE0, hEE, hx, true_and]
  · simp only [hE0, hEE, hx, false_and, if_false]
    simp [decodeFamily0, hx]

/-- Loose decoding does not look at n in families 5 and 9 (30_encoding.md R75). -/
theorem decodeFixedN_false (w : Word) (i : Instr) : decodeFixedN false w i = .ok i := rfl

/-- Strict decoding wants n = 0 in families 5 and 9 (30_encoding.md R74). -/
theorem decodeFixedN_true (w : Word) (i : Instr) : decodeFixedN true w i =
    if nField w = 0 then .ok i else .error (.unassigned w) := by
  by_cases hn : nField w = 0 <;> simp [decodeFixedN, hn]

end families

/-- An answer that fits the word: an instruction with this encoding, or this word as unassigned. -/
def AnswerFits (w : Word) : Except Reject Instr → Prop
  | .ok i => encode i = w
  | .error e => e = .unassigned w

section fits

variable {w : Word}

theorem decodeFamily0_true_fits (hop : opField w = 0) : AnswerFits w (decodeFamily0 true w) := by
  rw [decodeFamily0_true hop]
  split
  · next hw => exact hw.symm
  · split
    · next hw => exact hw.symm
    · rfl

theorem decodeFixedN_true_fits {i : Instr} (hi : nField w = 0 → encode i = w) :
    AnswerFits w (decodeFixedN true w i) := by
  rw [decodeFixedN_true]
  split
  · next hn => exact hi hn
  · rfl

theorem decodeFamily8_fits (hop : opField w = 8) : AnswerFits w (decodeFamily8 w) := by
  unfold decodeFamily8
  split
  case h_10 => rfl
  all_goals next hn => exact wordXYN_eq_of_fields hop hn

theorem decodeFamilyE_fits (hop : opField w = 0xE) : AnswerFits w (decodeFamilyE w) := by
  unfold decodeFamilyE
  split
  case h_3 => rfl
  all_goals next hkk => exact wordXKK_eq_of_fields hop hkk

theorem decodeFamilyF_fits (hop : opField w = 0xF) : AnswerFits w (decodeFamilyF w) := by
  unfold decodeFamilyF
  split
  case h_10 => rfl
  all_goals next hkk => exact wordXKK_eq_of_fields hop hkk

/-- Strict decoding answers an instruction only for its own word, and else that this word is unassigned. -/
theorem decodeWord_true_fits (w : Word) : AnswerFits w (decodeWord true w) := by
  unfold decodeWord
  split <;> rename_i hop
  case h_1 => exact decodeFamily0_true_fits hop
  case h_2 | h_3 | h_11 | h_12 => exact wordNNN_eq_of_field hop
  case h_4 | h_5 | h_7 | h_8 | h_13 => exact wordXKK_eq_of_fields hop rfl
  case h_6 | h_10 => exact decodeFixedN_true_fits fun hn => wordXYN_eq_of_fields hop (congrArg Fin.val hn)
  case h_9 => exact decodeFamily8_fits hop
  case h_14 => exact wordXYN_eq_of_fields hop rfl
  case h_15 => exact decodeFamilyE_fits hop
  case h_16 => exact decodeFamilyF_fits hop
  case h_17 => rfl

theorem encode_of_decodeWord_true {i : Instr} (h : decodeWord true w = .ok i) : encode i = w := by
  have hfits := decodeWord_true_fits w
  rwa [h] at hfits

/-- A word that an instruction's row selects decodes to an instruction of that row. -/
theorem decodeWord_true_of_selects {i : Instr} (h : i.row.selects w = true) :
    ∃ j, decodeWord true w = .ok j ∧ j.row = i.row := by
  cases i
  case cls | ret =>
    rw [selects_FFFF.1 h]
    exact ⟨_, rfl, rfl⟩
  case jp | call | seImm | sneImm | ldImm | addImm | ldI | jpV0 | rnd | drw =>
    have hop := selects_F000.1 h
    simp only [decodeWord, hop]
    exact ⟨_, rfl, rfl⟩
  case seReg | sneReg =>
    obtain ⟨hop, hn⟩ := selects_F00F.1 h
    simp only [decodeWord, hop, decodeFixedN, hn]
    exact ⟨_, rfl, rfl⟩
  case ldReg | orReg | andReg | xorReg | addReg | subReg | shrReg | subnReg | shlReg =>
    obtain ⟨hop, hn⟩ := selects_F00F.1 h
    rw [decodeWord_op8 _ hop, decodeFamily8, hn]
    exact ⟨_, rfl, rfl⟩
  case skp | sknp =>
    obtain ⟨hop, hkk⟩ := selects_F0FF.1 h
    rw [decodeWord_opE _ hop, decodeFamilyE, hkk]
    exact ⟨_, rfl, rfl⟩
  case ldVxDt | ldVxKey | ldDtVx | ldStVx | addI | ldFont | ldBcd | storeRegs | loadRegs =>
    obtain ⟨hop, hkk⟩ := selects_F0FF.1 h
    rw [decodeWord_opF _ hop, decodeFamilyF, hkk]
    exact ⟨_, rfl, rfl⟩

end fits

/-- Settles O3: the decoder answers an instruction of the selecting row, which makes that row the only one, and an
instruction it answers has a row that selects the word. -/
theorem strictDecodeIsTheOpcodeTable : Obligations.StrictDecodeIsTheOpcodeTable := by
  refine ⟨fun w i hi => ?_, fun w i j hi hj => ?_, fun w hnone => ?_⟩
  · obtain ⟨j, hdec, hrow⟩ := decodeWord_true_of_selects hi
    exact ⟨j, hdec, hrow, encode_of_decodeWord_true hdec⟩
  · obtain ⟨i', hdec, hrow⟩ := decodeWord_true_of_selects hi
    obtain ⟨j', hdec', hrow'⟩ := decodeWord_true_of_selects hj
    cases hdec.symm.trans hdec'
    exact hrow.symm.trans hrow'
  · cases hdec : decodeWord true w with
    | ok i =>
      have hsel := i.row_selects_encode
      rw [encode_of_decodeWord_true hdec, hnone i] at hsel
      cases hsel
    | error e =>
      have hfits := decodeWord_true_fits w
      rw [hdec] at hfits
      exact congrArg _ hfits

/-- Settles O4, by the families: only 0, 5 and 9 look at P_STRICT_DECODE. -/
theorem looseDecodeFollowsTheProse : Obligations.LooseDecodeFollowsTheProse := by
  refine fun w => ⟨fun hop => ?_, fun hop => ?_, fun hop => ?_, fun h0 h5 h9 => ?_⟩
  · rw [decodeWord_op0 _ hop, decodeFamily0_false]
  · rw [decodeWord_op5 _ hop, decodeFixedN_false]
  · rw [decodeWord_op9 _ hop, decodeFixedN_false]
  · unfold decodeWord
    split <;> rename_i hop
    case h_1 => exact absurd hop h0
    case h_6 => exact absurd hop h5
    case h_10 => exact absurd hop h9
    all_goals rfl

/-! ## The unassigned words -/

section unassigned

variable {w : Word}

theorem decodeFamily0_true_eq_unassigned (hop : opField w = 0) :
    decodeFamily0 true w = .error (.unassigned w) ↔ w ≠ 0x00E0 ∧ w ≠ 0x00EE := by
  rw [decodeFamily0_true hop]
  split
  · next hw => simp [hw]
  · split
    · next hw => simp [hw]
    · next hE0 hEE => exact iff_of_true rfl ⟨hE0, hEE⟩

theorem decodeFixedN_true_eq_unassigned (i : Instr) :
    decodeFixedN true w i = .error (.unassigned w) ↔ nField w ≠ 0 := by
  rw [decodeFixedN_true]
  split
  · next hn => simp [hn]
  · next hn => exact iff_of_true rfl hn

theorem decodeFamily8_eq_unassigned : decodeFamily8 w = .error (.unassigned w) ↔
    (nField w).val ∈ [8, 9, 0xA, 0xB, 0xC, 0xD, 0xF] := by
  unfold decodeFamily8
  split
  case h_10 =>
    have := (nField w).isLt
    simp only [List.mem_cons, List.not_mem_nil, or_false, true_iff, imp_false] at *
    omega
  all_goals next hn => simp [hn]

theorem decodeFamilyE_eq_unassigned : decodeFamilyE w = .error (.unassigned w) ↔
    (kkField w).toNat ∉ [0x9E, 0xA1] := by
  unfold decodeFamilyE
  split
  case h_3 =>
    simp only [List.mem_cons, List.not_mem_nil, or_false, true_iff, imp_false] at *
    omega
  all_goals next hkk => simp [hkk]

theorem decodeFamilyF_eq_unassigned : decodeFamilyF w = .error (.unassigned w) ↔
    (kkField w).toNat ∉ [0x07, 0x0A, 0x15, 0x18, 0x1E, 0x29, 0x33, 0x55, 0x65] := by
  unfold decodeFamilyF
  split
  case h_10 =>
    simp only [List.mem_cons, List.not_mem_nil, or_false, true_iff, imp_false] at *
    omega
  all_goals next hkk => simp [hkk]

theorem decodeWord_true_eq_unassigned (w : Word) : decodeWord true w = .error (.unassigned w) ↔
    (opField w = 0 ∧ w ≠ 0x00E0 ∧ w ≠ 0x00EE) ∨
    ((opField w = 5 ∨ opField w = 9) ∧ nField w ≠ 0) ∨
    (opField w = 8 ∧ (nField w).val ∈ [8, 9, 0xA, 0xB, 0xC, 0xD, 0xF]) ∨
    (opField w = 0xE ∧ (kkField w).toNat ∉ [0x9E, 0xA1]) ∨
    (opField w = 0xF ∧ (kkField w).toNat ∉ [0x07, 0x0A, 0x15, 0x18, 0x1E, 0x29, 0x33, 0x55, 0x65]) := by
  unfold decodeWord
  split <;> rename_i hop
  case h_1 => simp [hop, decodeFamily0_true_eq_unassigned hop]
  case h_6 | h_10 => simp [hop, decodeFixedN_true_eq_unassigned]
  case h_9 => simp [hop, decodeFamily8_eq_unassigned]
  case h_15 => simp [hop, decodeFamilyE_eq_unassigned]
  case h_16 => simp [hop, decodeFamilyF_eq_unassigned]
  case h_17 =>
    have := opField_lt w
    simp only [imp_false] at *
    omega
  all_goals simp [hop]

end unassigned

end Sys2Proof

namespace Sys2Proof.Machine

/-- A cycle on a word that decodes to no instruction is the default advance (30_encoding.md R76, R77). -/
theorem step_eq_advance {s : State} {e : Reject} (hrun : s.Running) (hfetch : s.CanFetch)
    (hdec : decodeWord s.config.strictDecode s.instrWord = .error e) : step s = .next s.advance := by
  have hnofault : s.fetchFault? = none := fetchFault?_eq_none.mpr hfetch
  simp only [step, hrun, hnofault, hdec, execUnassigned]

/-- Settles O5: the list of R76 family by family, and the cycle is the default advance. -/
theorem unassignedWordsAreNoOps : Obligations.UnassignedWordsAreNoOps :=
  ⟨decodeWord_true_eq_unassigned, fun _ hrun hfetch hdec => step_eq_advance hrun hfetch hdec⟩

end Sys2Proof.Machine
end

section
/-! SUPPORT. Decoding the word of an instruction (30_encoding.md R73 to R75). -/

namespace Sys2Proof

/-- The decoder undoes the encoder in both modes: the word `encode` gives has x = 0 in family 0 and n = 0 in families 5
and 9, which is all that strict decoding asks for. -/
theorem decodeWord_encode (strict : Bool) (i : Instr) : decodeWord strict (encode i) = .ok i := by
  cases i
  case cls | ret => cases strict <;> rfl
  case jp | call | seImm | sneImm | ldImm | addImm | ldI | jpV0 | rnd | drw => simp [encode, decodeWord]
  case seReg | sneReg => simp [encode, decodeWord, decodeFixedN]
  case ldReg | orReg | andReg | xorReg | addReg | subReg | shrReg | subnReg | shlReg =>
    simp [encode, decodeWord, decodeFamily8]
  case skp | sknp => simp [encode, decodeWord, decodeFamilyE]
  case ldVxDt | ldVxKey | ldDtVx | ldStVx | addI | ldFont | ldBcd | storeRegs | loadRegs =>
    simp [encode, decodeWord, decodeFamilyF]

/-- Every word 0nEE is RET when decoding is loose (30_encoding.md R75). -/
theorem decodeWord_false_ret (x : Reg) : decodeWord false (wordXKK 0x0 x 0xEE) = .ok .ret := by
  rw [decodeWord_op0 false (opField_wordXKK ..), decodeFamily0_false, kkField_wordXKK]
  rfl

end Sys2Proof
end

section
/-! SUPPORT. The PC an instruction leaves (40_cycle_and_control.md R102), and what a faulting cycle leaves
(40_cycle_and_control.md R101, R104). -/

namespace Sys2Proof.Machine

/-! ## PC after an instruction -/

section pcAfter

variable {i : Instr} {s t : State} {x : Reg}

theorem pcAfter_of_isSkip (hi : IsSkip i) (hpc : t.pc = s.pc + 2 ∨ t.pc = s.pc + 4) : PcAfter i s t := by
  cases i
  case seImm | sneImm | seReg | sneReg | skp | sknp => exact hpc
  all_goals exact False.elim hi

theorem pcAfter_of_setsOnly (hi : SetsOnly x i) (hpc : t.pc = s.pc + 2) : PcAfter i s t := by
  cases i
  case ldImm | addImm | ldReg | orReg | andReg | xorReg | ldVxDt => exact hpc
  case ldVxKey => exact .inl hpc
  all_goals exact False.elim hi

theorem pcAfter_of_setsWithFlag (hi : SetsWithFlag x i) (hpc : t.pc = s.pc + 2) : PcAfter i s t := by
  cases i
  case addReg | subReg | shrReg | subnReg | shlReg => exact hpc
  all_goals exact False.elim hi

/-- The PC of a skip, taken or not (41_skips.md R120). -/
theorem State.advance_skipIf_pc (s : State) (c : Bool) :
    (s.advance.skipIf c).pc = s.pc + 2 ∨ (s.advance.skipIf c).pc = s.pc + 4 := by
  rw [State.advance_skipIf]
  cases c
  · exact .inl rfl
  · exact .inr rfl

/-- An instruction either raises its own fault on the state its cycle began with, or completes: the status stays and PC
is where `PcAfter` says. -/
theorem exec_raises_or_completes (h : exec i s = .next t) :
    (∃ f, t = s.raise f ∧ CauseCode i = some f.code ∧ f.pc0 = s.pc ∧ f.word? = some s.instrWord) ∨
    (t.status = s.status ∧ PcAfter i s t) := by
  cases exec_effect h
  case raise f hcause hpc hword => exact .inl ⟨f, rfl, hcause, hpc, hword⟩
  case skip c hi => exact .inr ⟨State.skipIf_status .., pcAfter_of_isSkip hi (s.advance_skipIf_pc c)⟩
  case set hi => exact .inr ⟨rfl, pcAfter_of_setsOnly hi rfl⟩
  case flag hi => exact .inr ⟨rfl, pcAfter_of_setsWithFlag hi rfl⟩
  case ret hsp => exact .inr ⟨rfl, hsp, rfl⟩
  case wait => exact .inr ⟨rfl, .inr rfl⟩
  all_goals exact .inr ⟨rfl, rfl⟩

end pcAfter

/-- Settles O10: an instruction that completes stays Running with the PC of `PcAfter`; one that raises leaves PC. -/
theorem pcAfterEveryInstruction : Obligations.PcAfterEveryInstruction := by
  intro i s t hrun hexec
  rcases exec_raises_or_completes hexec with ⟨f, rfl, -⟩ | ⟨hstatus, hpc⟩
  · exact ⟨fun h => (nomatch h), fun _ => rfl⟩
  · exact ⟨fun _ => hpc, fun hstopped => absurd (hstatus.trans hrun) hstopped⟩

/-! ## Faults of a cycle -/

/-- The record holds a word except for the two causes of the fetch (60_exceptions.md R221, R223). -/
theorem Fault.word?_eq_none_iff (f : Fault) : f.word? = none ↔ f.code = 1 ∨ f.code = 7 := by
  cases f <;> simp [Fault.word?, Fault.code]

/-- The record of a fault of the fetch: PC and no word (60_exceptions.md R223). -/
theorem fetchFault?_record {s : State} {f : Fault} (h : s.fetchFault? = some f) :
    f.pc0 = s.pc ∧ f.word? = none := by
  rcases fetchFault?_eq_some h with ⟨-, rfl⟩ | ⟨-, -, -, rfl⟩ <;> exact ⟨rfl, rfl⟩

/-- A Running core's cycle that ends Faulted raised the fault, in the fetch or in the instruction. -/
theorem step_faulted_cases {s t : State} {f : Fault} (hrun : s.Running) (hstep : step s = .next t)
    (hf : t.status = .faulted f) :
    t = s.raise f ∧ f.pc0 = s.pc ∧ (f.word? = none ∨ f.word? = some s.instrWord) := by
  have hraised {g : Fault} (hg : (s.raise g).status = .faulted f) : g = f := RunStatus.faulted.inj hg
  have hkept (hstatus : t.status = s.status) : False := nomatch hf.symm.trans (hstatus.trans hrun)
  rcases step_cases hstep with ⟨g, -, rfl⟩ | ⟨-, g, hfetch, rfl⟩ | ⟨-, -, i, -, hexec⟩ | ⟨-, -, -, rfl⟩
  · exact (hkept rfl).elim
  · obtain rfl := hraised hf
    obtain ⟨hpc, hword⟩ := fetchFault?_record hfetch
    exact ⟨rfl, hpc, .inl hword⟩
  · rcases exec_raises_or_completes hexec with ⟨g, rfl, -, hpc, hword⟩ | ⟨hstatus, -⟩
    · obtain rfl := hraised hf
      exact ⟨rfl, hpc, .inr hword⟩
    · exact (hkept hstatus).elim
  · exact (hkept rfl).elim

/-- Settles O11: a fault is raised on the state before the cycle, and whether its record holds the word is told by its
code. -/
theorem faultsArePrecise : Obligations.FaultsArePrecise := by
  intro s t f hrun hstep hf
  obtain ⟨rfl, hpc, hword⟩ := step_faulted_cases hrun hstep hf
  refine ⟨rfl, hpc, ?_⟩
  split
  · next hcode => exact f.word?_eq_none_iff.2 hcode
  · next hcode => exact hword.resolve_left fun hnone => hcode (f.word?_eq_none_iff.1 hnone)

theorem step_eq_raise {s : State} {f : Fault} (hrun : s.Running) (hfault : s.fetchFault? = some f) :
    step s = .next (s.raise f) := by
  simp only [step, hrun, hfault]

/-- Settles O7: the bound on PC is checked before P_ODD_PC, and a fault of the fetch is the whole cycle. -/
theorem fetchChecks : Obligations.FetchChecks := by
  refine fun s hrun => ⟨fun hout => step_eq_raise hrun ?_, fun hin hpolicy hodd => step_eq_raise hrun ?_,
    fun hin heven => fetchFault?_eq_none.2 ⟨hin, heven⟩⟩
  · exact if_pos hout
  · rw [State.fetchFault?, if_neg (Nat.not_lt.2 hin), if_pos ⟨hpolicy, hodd⟩]

end Sys2Proof.Machine
end

section
/-! SUPPORT. The control transfers (40_cycle_and_control.md R105 to R108): the whole next state of each. -/

namespace Sys2Proof.Machine

/-- The target of JP V0 is the sum of its operands as numbers, in 16 bits (40_cycle_and_control.md R108). -/
theorem byteOperand_add_addrOperand (b : Byte) (nnn : Addr12) :
    byteOperand b + addrOperand nnn = BitVec.ofNat 16 (b.toNat + nnn.toNat) := by
  apply BitVec.eq_of_toNat_eq
  rw [BitVec.toNat_add, byteOperand_toNat, addrOperand_toNat, BitVec.toNat_ofNat]

section stack

variable {s : State}

theorem exec_call_of_lt (nnn : Addr12) (h : s.sp.val < 16) : exec (.call nnn) s = .next
    { s with
      stack := s.stack.set s.sp.val (s.pc + 2)
      sp := ⟨s.sp.val + 1, by omega⟩
      pc := nnn.setWidth 16 } := by
  change execCall nnn s = _
  rw [execCall, State.push?_eq s.advance s.advance.pc h]
  rfl

theorem exec_call_of_full (nnn : Addr12) (h : s.sp.val = 16) :
    exec (.call nnn) s = .next (s.raise (.stackOverflow s.pc s.instrWord)) := by
  change execCall nnn s = _
  rw [execCall, State.push?_full s.advance s.advance.pc h]

theorem exec_ret_of_pos (h : 0 < s.sp.val) : exec .ret s = .next
    { s with sp := ⟨s.sp.val - 1, by omega⟩, pc := s.stack[s.sp.val - 1] } := by
  change execRet s = _
  rw [execRet, State.pop?_eq s.advance h]
  rfl

theorem exec_ret_of_empty (h : s.sp.val = 0) :
    exec .ret s = .next (s.raise (.stackUnderflow s.pc s.instrWord)) := by
  change execRet s = _
  rw [execRet, State.pop?_empty s.advance h]

end stack

/-- Settles O18: the jump replaces the default advance. -/
theorem jumpSetsPc : Obligations.JumpSetsPc :=
  fun nnn _ => ⟨fun strict => decodeWord_encode strict (.jp nnn), rfl⟩

/-- Settles O19: the two operands are zero-extended before the addition. -/
theorem jumpV0AddsV0 : Obligations.JumpV0AddsV0 := by
  refine fun nnn s => ⟨fun strict => decodeWord_encode strict (.jpV0 nnn), ?_⟩
  change Host.Outcome.next (s.advance.jump (byteOperand (s.getV 0) + addrOperand nnn)) = _
  rw [byteOperand_add_addrOperand]
  rfl

/-- Settles O20, by the two outcomes of the push. -/
theorem callPushesThenJumps : Obligations.CallPushesThenJumps :=
  fun nnn _ => ⟨fun strict => decodeWord_encode strict (.call nnn), exec_call_of_lt nnn, exec_call_of_full nnn⟩

/-- Settles O21, by the two outcomes of the pop. -/
theorem returnPops : Obligations.ReturnPops :=
  fun _ => ⟨decodeWord_false_ret, decodeWord_encode true .ret, exec_ret_of_pos, exec_ret_of_empty⟩

end Sys2Proof.Machine
end

section
/-! SUPPORT. The skips on an immediate and on two registers (41_skips.md R120 to R124): their words in both decoding
modes, and the whole next state of each. -/

namespace Sys2Proof

/-- Families 5 and 9 take every low nibble that the mode allows (30_encoding.md R74, R75). -/
theorem decodeFixedN_of_nField {strict : Bool} {w : Word} (hn : nField w = 0 ∨ strict = false) (i : Instr) :
    decodeFixedN strict w i = .ok i := by
  cases strict
  case false => exact decodeFixedN_false w i
  case true => rw [decodeFixedN_true, if_pos (hn.resolve_right nofun)]

section lowNibble

variable {strict : Bool} {n : Fin 16} (hn : n = 0 ∨ strict = false)

include hn

theorem decodeWord_5xyn (x y : Reg) : decodeWord strict (wordXYN 0x5 x y n) = .ok (.seReg x y) := by
  rw [decodeWord_op5 strict (opField_wordXYN ..), xField_wordXYN, yField_wordXYN]
  exact decodeFixedN_of_nField (by rwa [nField_wordXYN]) _

theorem decodeWord_9xyn (x y : Reg) : decodeWord strict (wordXYN 0x9 x y n) = .ok (.sneReg x y) := by
  rw [decodeWord_op9 strict (opField_wordXYN ..), xField_wordXYN, yField_wordXYN]
  exact decodeFixedN_of_nField (by rwa [nField_wordXYN]) _

end lowNibble

end Sys2Proof

namespace Sys2Proof.Machine

/-- Skip if equal (41_skips.md R121, R123). -/
theorem State.advance_skipIf_beq (s : State) (a b : Byte) :
    s.advance.skipIf (a == b) = { s with pc := if a = b then s.pc + 4 else s.pc + 2 } := by
  simp only [State.advance_skipIf, beq_iff_eq]

/-- Skip if unequal (41_skips.md R122, R124). -/
theorem State.advance_skipIf_bne (s : State) (a b : Byte) :
    s.advance.skipIf (a != b) = { s with pc := if a = b then s.pc + 2 else s.pc + 4 } := by
  simp only [State.advance_skipIf, bne_iff_ne, ite_not]

/-- Settles O23: both compare Vx with the immediate. -/
theorem skipsOnImmediate : Obligations.SkipsOnImmediate :=
  fun x kk s =>
    ⟨fun strict => ⟨decodeWord_encode strict (.seImm x kk), decodeWord_encode strict (.sneImm x kk)⟩,
      congrArg Host.Outcome.next (s.advance_skipIf_beq (s.getV x) kk),
      congrArg Host.Outcome.next (s.advance_skipIf_bne (s.getV x) kk)⟩

/-- Settles O24: both compare Vx with Vy, and neither result depends on the low nibble. -/
theorem skipsOnRegisters : Obligations.SkipsOnRegisters :=
  fun x y s =>
    ⟨fun _ _ hn => ⟨decodeWord_5xyn hn x y, decodeWord_9xyn hn x y⟩,
      congrArg Host.Outcome.next (s.advance_skipIf_beq (s.getV x) (s.getV y)),
      congrArg Host.Outcome.next (s.advance_skipIf_bne (s.getV x) (s.getV y))⟩

end Sys2Proof.Machine
end

section
/-! SUPPORT. The loads and the ALU (42_alu.md R130 to R143): results and flags as numbers, and the whole next state of
each instruction. -/

namespace Sys2Proof.Machine

/-! ## Results as numbers (42_alu.md R130) -/

section results

variable (a b : Byte)

theorem byte_add_eq_ofNat : a + b = BitVec.ofNat 8 ((a.toNat + b.toNat) % 256) := by
  apply BitVec.eq_of_toNat_eq
  rw [BitVec.toNat_add, BitVec.toNat_ofNat, Nat.mod_mod]

theorem byte_sub_eq_ofNat : a - b = BitVec.ofNat 8 ((a.toNat + 256 - b.toNat) % 256) := by
  apply BitVec.eq_of_toNat_eq
  rw [BitVec.toNat_sub, BitVec.toNat_ofNat, Nat.mod_mod]
  omega

theorem byte_shiftRight_one_eq_ofNat : a >>> 1 = BitVec.ofNat 8 (a.toNat / 2) := by
  apply BitVec.eq_of_toNat_eq
  rw [BitVec.toNat_ushiftRight, BitVec.toNat_ofNat, Nat.shiftRight_one]
  omega

theorem byte_shiftLeft_one_eq_ofNat : a <<< 1 = BitVec.ofNat 8 (2 * a.toNat % 256) := by
  apply BitVec.eq_of_toNat_eq
  rw [BitVec.toNat_shiftLeft, BitVec.toNat_ofNat, Nat.shiftLeft_eq]
  omega

end results

/-! ## Flags as numbers (42_alu.md R131) -/

section flags

variable (a b : Byte)

theorem flagByte_carryOut : flagByte (carryOut a b) = if 255 < a.toNat + b.toNat then 1 else 0 := by
  simp only [flagByte, carryOut, decide_eq_true_eq]

/-- The not-borrow as the three cases of 42_alu.md R139 and R141: greater, equal, less. -/
theorem flagByte_notBorrow (eqFlag : Bool) : flagByte (notBorrow eqFlag a b) =
    if b.toNat < a.toNat then 1 else if a.toNat = b.toNat then (if eqFlag then 1 else 0) else 0 := by
  unfold notBorrow
  split
  · next h => rw [h, if_neg (Nat.lt_irrefl _), if_pos rfl, flagByte]
  · next h =>
    rw [if_neg (mt BitVec.eq_of_toNat_eq h)]
    simp only [flagByte, decide_eq_true_eq]

theorem flagByte_eq_ofNat (c : Bool) : flagByte c = BitVec.ofNat 8 c.toNat := by
  cases c <;> rfl

theorem flagByte_lowBit : flagByte (lowBit a) = BitVec.ofNat 8 (a.toNat % 2) := by
  rw [flagByte_eq_ofNat, lowBit, BitVec.getLsbD, Nat.toNat_testBit, Nat.pow_zero, Nat.div_one]

theorem flagByte_highBit : flagByte (highBit a) = BitVec.ofNat 8 (a.toNat / 128) := by
  have hone : a.toNat / 2 ^ 7 % 2 = a.toNat / 128 := by omega
  rw [flagByte_eq_ofNat, highBit, BitVec.getLsbD, Nat.toNat_testBit, hone]

end flags

/-- The source of the shifts (42_alu.md R140, R142). -/
theorem State.shiftOperand_eq (s : State) (x y : Reg) :
    s.shiftOperand x y = if s.config.shiftSrc = .vx then s.v[x.val] else s.v[y.val] := by
  unfold State.shiftOperand
  split
  · next h => exact (if_pos h).symm
  · next h => rw [h]; rfl

/-! ## The next states -/

/-- The whole next state of an instruction with a flag output: Vx, then VF, last (42_alu.md R131). -/
theorem State.advance_setResultThenFlag {s : State} {x : Reg} {res res' flag' : Byte} {flag : Bool}
    (hres : res = res') (hflag : flagByte flag = flag') :
    s.advance.setResultThenFlag x res flag =
      { s with pc := s.pc + 2, v := (s.v.set x.val res').set 15 flag' } := by
  subst hres hflag
  rfl

/-- Settles O25: ADD of an immediate is the sum modulo 256 and writes no flag. -/
theorem immediateLoadAndAdd : Obligations.ImmediateLoadAndAdd := by
  refine fun x kk s =>
    ⟨fun strict => ⟨decodeWord_encode strict (.ldImm x kk), decodeWord_encode strict (.addImm x kk)⟩, rfl, ?_⟩
  rw [← byte_add_eq_ofNat]
  rfl

/-- Settles O26: each writes one register, Vx, from the old Vx and Vy. -/
theorem registerMovesAndLogic : Obligations.RegisterMovesAndLogic :=
  fun x y _ =>
    ⟨fun strict => ⟨decodeWord_encode strict (.ldReg x y), decodeWord_encode strict (.orReg x y),
      decodeWord_encode strict (.andReg x y), decodeWord_encode strict (.xorReg x y)⟩, rfl, rfl, rfl, rfl⟩

/-- Settles O27: the sum modulo 256, then its carry. -/
theorem addSetsCarry : Obligations.AddSetsCarry :=
  fun x y s => ⟨fun strict => decodeWord_encode strict (.addReg x y), congrArg Host.Outcome.next <|
    State.advance_setResultThenFlag (byte_add_eq_ofNat (s.getV x) (s.getV y)) (flagByte_carryOut ..)⟩

/-- Settles O28: Vx is the minuend of SUB, Vy that of SUBN. -/
theorem subtractSetsNotBorrow : Obligations.SubtractSetsNotBorrow :=
  fun x y s =>
    ⟨fun strict => ⟨decodeWord_encode strict (.subReg x y), decodeWord_encode strict (.subnReg x y)⟩,
      congrArg Host.Outcome.next <|
        State.advance_setResultThenFlag (byte_sub_eq_ofNat (s.getV x) (s.getV y)) (flagByte_notBorrow ..),
      congrArg Host.Outcome.next <|
        State.advance_setResultThenFlag (byte_sub_eq_ofNat (s.getV y) (s.getV x)) (flagByte_notBorrow ..)⟩

/-- Settles O29: half or double the source, then the bit that leaves it. -/
theorem shiftsSetTheBitShiftedOut : Obligations.ShiftsSetTheBitShiftedOut := by
  intro x y s
  rw [← State.shiftOperand_eq]
  exact ⟨fun strict => ⟨decodeWord_encode strict (.shrReg x y), decodeWord_encode strict (.shlReg x y)⟩,
    congrArg Host.Outcome.next <|
      State.advance_setResultThenFlag (byte_shiftRight_one_eq_ofNat (s.shiftOperand x y)) (flagByte_lowBit _),
    congrArg Host.Outcome.next <|
      State.advance_setResultThenFlag (byte_shiftLeft_one_eq_ofNat (s.shiftOperand x y)) (flagByte_highBit _)⟩

/-- Settles O30: a bit that is 0 in kk is 0 in the conjunction, whatever byte is drawn. -/
theorem randomAndMask : Obligations.RandomAndMask := by
  refine fun x kk s => ⟨fun strict => decodeWord_encode strict (.rnd x kk), s.draws + 1, rfl, fun b _ hb => ?_⟩
  rw [BitVec.getLsbD_and, hb, Bool.and_false]

end Sys2Proof.Machine
end

section
/-! SUPPORT. The index register and the memory transfers (43_index_and_memory.md R160 to R165): the whole next state of
each, and what a store leaves at every address. -/

namespace Sys2Proof.Machine

/-! ## Addresses as numbers (43_index_and_memory.md R161, R162) -/

theorem glyphAddress_eq_ofNat (b : Byte) : glyphAddress b = BitVec.ofNat 16 (b.toNat * 5) := by
  apply BitVec.eq_of_toNat_eq
  rw [glyphAddress_toNat, BitVec.toNat_ofNat]
  omega

theorem word_add_byteOperand_eq_ofNat (w : Word) (b : Byte) :
    w + byteOperand b = BitVec.ofNat 16 (w.toNat + b.toNat) := by
  apply BitVec.eq_of_toNat_eq
  rw [BitVec.toNat_add, byteOperand_toNat, BitVec.toNat_ofNat]

/-! ## The address check by the last address touched (20_memory.md R60) -/

section lastAddress

variable {base n : Nat}

theorem lowestOutOfBounds?_of_last_le (h : base + n ≤ 0xFFF) : lowestOutOfBounds? base (n + 1) = none :=
  lowestOutOfBounds?_eq_none.2 (.inr (by omega))

theorem lowestOutOfBounds?_of_lt_last (h : 0xFFF < base + n) :
    lowestOutOfBounds? base (n + 1) = some (max base 0x1000) :=
  lowestOutOfBounds?_eq_some.2 ⟨⟨n.succ_pos, by omega⟩, rfl⟩

end lastAddress

/-! ## What a store leaves at every address (20_memory.md R61) -/

section store

variable (s : State) {a : Nat} {bs : List Byte}

theorem State.writeBytes_readByte_inside {j : Nat} (h : j < bs.length) :
    (s.writeBytes a bs).readByte (a + j) = bs[j] := by
  rw [State.writeBytes_readByte, dif_pos ⟨Nat.le_add_right a j, Nat.add_lt_add_left h a⟩]
  simp only [Nat.add_sub_cancel_left]

theorem State.writeBytes_readByte_outside {b : Nat} (h : b < a ∨ a + bs.length ≤ b) :
    (s.writeBytes a bs).readByte b = s.readByte b := by
  rw [State.writeBytes_readByte, dif_neg (by omega)]

end store

/-! ## The two outcomes of the instructions that can fault -/

section outcomes

variable {x : Reg} {s : State}

theorem exec_addI_of_le (h : s.i.toNat + (s.getV x).toNat ≤ 0xFFFF) :
    exec (.addI x) s = .next (s.advance.setI (s.i + byteOperand (s.getV x))) :=
  if_neg (Nat.not_lt.2 h)

theorem exec_addI_of_lt (h : 0xFFFF < s.i.toNat + (s.getV x).toNat) :
    exec (.addI x) s = .next (s.raise (.iOverflow s.i (s.getV x) s.pc s.instrWord)) :=
  if_pos h

theorem exec_ldBcd_of_le (h : s.i.toNat + 2 ≤ 0xFFF) :
    exec (.ldBcd x) s = .next (s.advance.writeBytes s.i.toNat (bcdDigits (s.getV x))) := by
  change execLdBcd x s = _
  rw [execLdBcd, lowestOutOfBounds?_of_last_le h]

theorem exec_ldBcd_of_lt (h : 0xFFF < s.i.toNat + 2) :
    exec (.ldBcd x) s = .next (s.raise (.memOutOfBounds (max s.i.toNat 0x1000) s.pc s.instrWord)) := by
  change execLdBcd x s = _
  rw [execLdBcd, lowestOutOfBounds?_of_lt_last h]

theorem exec_storeRegs_of_le (h : s.i.toNat + x.val ≤ 0xFFF) :
    exec (.storeRegs x) s = .next (s.advance.writeBytes s.i.toNat (s.regBlock x)) := by
  change execStoreRegs x s = _
  rw [execStoreRegs, lowestOutOfBounds?_of_last_le h]

theorem exec_storeRegs_of_lt (h : 0xFFF < s.i.toNat + x.val) :
    exec (.storeRegs x) s = .next (s.raise (.memOutOfBounds (max s.i.toNat 0x1000) s.pc s.instrWord)) := by
  change execStoreRegs x s = _
  rw [execStoreRegs, lowestOutOfBounds?_of_lt_last h]

theorem exec_loadRegs_of_le (h : s.i.toNat + x.val ≤ 0xFFF) :
    exec (.loadRegs x) s = .next { s.advance with v := s.loadBlock x s.i.toNat } := by
  change execLoadRegs x s = _
  rw [execLoadRegs, lowestOutOfBounds?_of_last_le h]

theorem exec_loadRegs_of_lt (h : 0xFFF < s.i.toNat + x.val) :
    exec (.loadRegs x) s = .next (s.raise (.memOutOfBounds (max s.i.toNat 0x1000) s.pc s.instrWord)) := by
  change execLoadRegs x s = _
  rw [execLoadRegs, lowestOutOfBounds?_of_lt_last h]

end outcomes

/-- Settles O33: the three bytes stored are the digits, and the last address decides the fault. -/
theorem bcdStoresThreeDigits : Obligations.BcdStoresThreeDigits := by
  refine fun x s => ⟨fun strict => decodeWord_encode strict (.ldBcd x), fun h => ?_, exec_ldBcd_of_lt⟩
  have hdigit (j : Nat) (hj : j < 3) : (s.advance.writeBytes s.i.toNat (bcdDigits (s.getV x))).readByte
      (s.i.toNat + j) = (bcdDigits (s.getV x))[j] := s.advance.writeBytes_readByte_inside hj
  exact ⟨_, exec_ldBcd_of_le h, rfl, hdigit 0 (by decide), hdigit 1 (by decide), hdigit 2 (by decide),
    fun _ ha => s.advance.writeBytes_readByte_outside ha⟩

/-- Settles O34: the bytes stored are V0..Vx, and the last address decides the fault. -/
theorem storeRegistersToMemory : Obligations.StoreRegistersToMemory := by
  refine fun x s => ⟨fun strict => decodeWord_encode strict (.storeRegs x), fun h => ?_, exec_storeRegs_of_lt⟩
  have hlen : (s.regBlock x).length = x.val + 1 := s.regBlock_length x
  refine ⟨_, exec_storeRegs_of_le h, rfl, fun j hj => ?_, fun a ha => ?_⟩
  · have hlt : j.val < (s.regBlock x).length := hlen ▸ Nat.lt_succ_of_le hj
    rw [s.advance.writeBytes_readByte_inside hlt]
    exact s.regBlock_getElem x j.val hlt
  · exact s.advance.writeBytes_readByte_outside (by omega)

/-- Settles O31: the glyph address of a byte fits 16 bits, so no multiple of 5 is cut. -/
theorem indexLoads : Obligations.IndexLoads := by
  refine fun x nnn s =>
    ⟨fun strict => ⟨decodeWord_encode strict (.ldI nnn), decodeWord_encode strict (.ldFont x)⟩, rfl, ?_⟩
  rw [← glyphAddress_eq_ofNat]
  rfl

/-- Settles O32, by the two sides of the bound on the sum. -/
theorem indexAddFaultsOnOverflow : Obligations.IndexAddFaultsOnOverflow := by
  refine fun x s => ⟨fun strict => decodeWord_encode strict (.addI x), fun h => ?_, exec_addI_of_lt⟩
  rw [← word_add_byteOperand_eq_ofNat]
  exact exec_addI_of_le h

/-- Settles O35: `State.loadBlock` is the whole new register file, and the last address decides the fault. -/
theorem loadRegistersFromMemory : Obligations.LoadRegistersFromMemory :=
  fun x _ => ⟨fun strict => decodeWord_encode strict (.loadRegs x), exec_loadRegs_of_le, exec_loadRegs_of_lt⟩

end Sys2Proof.Machine
end

section
/-! SUPPORT. The display instructions (44_display.md R181 to R185): the whole next state of each, and the collision as
an erasure. -/

namespace Sys2Proof

/-- Every word 0nE0 is CLS when decoding is loose (30_encoding.md R75). -/
theorem decodeWord_false_cls (x : Reg) : decodeWord false (wordXKK 0x0 x 0xE0) = .ok .cls := by
  rw [decodeWord_op0 false (opField_wordXKK ..), decodeFamily0_false, kkField_wordXKK]
  rfl

end Sys2Proof

namespace Sys2Proof.Machine

theorem flagByte_of_iff {c : Bool} {p : Prop} [Decidable p] (h : c = true ↔ p) :
    flagByte c = if p then 1 else 0 :=
  if_congr h rfl rfl

/-- A pixel goes from 1 to 0 exactly when it was 1 and a sprite bit 1 falls on it (44_display.md R182). -/
theorem drawSprite_erases_iff (s : State) {count : Nat} (address x y : Nat) (hc : count ≤ 32) (row : Fin 32)
    (col : Fin 64) :
    (Framebuffer.get s.fb row col = true ∧ Framebuffer.get (drawSprite s count address x y).1 row col = false) ↔
      SpriteCovers s count address x y row col ∧ Framebuffer.get s.fb row col = true := by
  rw [← Bool.not_eq_true, drawSprite_get s count address x y hc, not_not]
  constructor
  · rintro ⟨hset, hcovers⟩
    exact ⟨hcovers.1 hset, hset⟩
  · rintro ⟨hcovers, hset⟩
    exact ⟨hset, iff_of_true hset hcovers⟩

/-- A plot collides exactly when it erases a pixel (44_display.md R182). -/
theorem drawSprite_collision_iff_erases (s : State) {count : Nat} (address x y : Nat) (hc : count ≤ 32) :
    (drawSprite s count address x y).2 = true ↔ ∃ row col, Framebuffer.get s.fb row col = true ∧
      Framebuffer.get (drawSprite s count address x y).1 row col = false := by
  simp only [drawSprite_erases_iff s address x y hc, drawSprite_collision s count address x y hc]

section draw

/-- The sprite plot of DRW: n bytes from I, at column Vx and row Vy (44_display.md R185). -/
def State.drwPlot (s : State) (x y : Reg) (n : Fin 16) : Framebuffer × Bool :=
  drawSprite s n.val s.i.toNat (s.getV x).toNat (s.getV y).toNat

variable {x y : Reg} {n : Fin 16} {s : State}

theorem exec_drw_of_le (h : n.val = 0 ∨ s.i.toNat + n.val ≤ 0x1000) : exec (.drw x y n) s = .next
    { s with
      pc := s.pc + 2
      fb := (s.drwPlot x y n).1
      v := s.v.set 15 (flagByte (s.drwPlot x y n).2) } := by
  change execDrw x y n s = _
  rw [execDrw, lowestOutOfBounds?_eq_none.2 h]
  rfl

theorem exec_drw_of_lt (hn : n.val ≠ 0) (h : 0x1000 < s.i.toNat + n.val) : exec (.drw x y n) s =
    .next (s.raise (.memOutOfBounds (max s.i.toNat 0x1000) s.pc s.instrWord)) := by
  change execDrw x y n s = _
  rw [execDrw, lowestOutOfBounds?_eq_some.2 ⟨⟨Nat.pos_of_ne_zero hn, h⟩, rfl⟩]

end draw

/-- Settles O38: the plot inverts the covered pixels, and its collision is an erasure. -/
theorem drawXorsWrapsAndReportsCollision : Obligations.DrawXorsWrapsAndReportsCollision := by
  refine fun x y n s => ⟨fun strict => decodeWord_encode strict (.drw x y n), fun h => ?_, exec_drw_of_lt⟩
  have hc : n.val ≤ 32 := by omega
  refine ⟨_, exec_drw_of_le h, ?_, drawSprite_get s n.val _ _ _ hc, ?_⟩
  · rw [Vector.getElem_set_self]
  · rw [Vector.getElem_set_self]
    exact flagByte_of_iff (drawSprite_collision_iff_erases s _ _ _ hc)

/-- Settles O37: the screen CLS leaves is the blank one. -/
theorem clearScreen : Obligations.ClearScreen :=
  fun _ => ⟨decodeWord_encode true .cls, decodeWord_false_cls, _, rfl, rfl, Framebuffer.get_blank⟩

end Sys2Proof.Machine
end

section
/-! SUPPORT. The keypad and timer instructions (45_keypad_and_timers.md R200 to R206): the whole next state of each. -/

namespace Sys2Proof.Machine

/-! ## The key the wait takes (45_keypad_and_timers.md R203) -/

/-- A key down beyond which, in the direction of P_KEYWAIT_PICK, no key is down is the key taken. -/
theorem State.pickKey?_of_extreme {s : State} {k : Reg} (hk : s.keys[k.val] = true)
    (hmost : ∀ j : Reg, s.keys[j.val] = true → if s.config.keyWaitPick = .highest then j ≤ k else k ≤ j) :
    s.pickKey? = some k := by
  refine (State.pickKey?_eq_some s k).2 ⟨hk, fun j hj => ?_⟩
  have hj' := hmost j hj
  cases hpick : s.config.keyWaitPick with
  | highest => rwa [if_pos hpick] at hj'
  | lowest => rwa [if_neg (by rw [hpick]; nofun)] at hj'

/-! ## The two outcomes of the instructions that read the keypad -/

section keypad

variable {x : Reg} {s : State}

theorem exec_skp_of_key (h : (s.getV x).toNat < 16) :
    exec (.skp x) s = .next (s.advance.skipIf s.keys[(s.getV x).toNat]) := by
  change execSkp x s = _
  rw [execSkp, State.keyState?_key s _ h]

theorem exec_sknp_of_key (h : (s.getV x).toNat < 16) :
    exec (.sknp x) s = .next (s.advance.skipIf (!s.keys[(s.getV x).toNat])) := by
  change execSknp x s = _
  rw [execSknp, State.keyState?_key s _ h]

theorem exec_skp_of_not_key (h : 15 < (s.getV x).toNat) :
    exec (.skp x) s = .next (s.raise (.keyOutOfRange (s.getV x) s.pc s.instrWord)) := by
  change execSkp x s = _
  rw [execSkp, State.keyState?_none s _ h]

theorem exec_sknp_of_not_key (h : 15 < (s.getV x).toNat) :
    exec (.sknp x) s = .next (s.raise (.keyOutOfRange (s.getV x) s.pc s.instrWord)) := by
  change execSknp x s = _
  rw [execSknp, State.keyState?_none s _ h]

/-- A waiting cycle takes the default advance back (45_keypad_and_timers.md R203). -/
theorem exec_ldVxKey_of_no_key_down (h : ∀ k : Reg, s.keys[k.val] = false) : exec (.ldVxKey x) s = .next s := by
  have hpc : s.pc + 2 - 2 = s.pc := BitVec.add_sub_cancel ..
  change execLdVxKey x s = _
  rw [execLdVxKey, (State.pickKey?_eq_none s).2 h]
  simp only [State.jump, State.advance, hpc]

theorem exec_ldVxKey_of_pickKey? {k : Reg} (h : s.pickKey? = some k) :
    exec (.ldVxKey x) s = .next (s.advance.setV x (BitVec.ofNat 8 k.val)) := by
  change execLdVxKey x s = _
  rw [execLdVxKey, h]

end keypad

/-- Skip unless a key is down (45_keypad_and_timers.md R202). -/
theorem State.advance_skipIf_not (s : State) (c : Bool) :
    s.advance.skipIf (!c) = { s with pc := if c then s.pc + 2 else s.pc + 4 } := by
  cases c
  · exact s.advance_skipIf true
  · exact s.advance_skipIf false

/-- Settles O41: no key is taken when none is down, else the extreme one of those down. -/
theorem keyWaitTakesAKeyDown : Obligations.KeyWaitTakesAKeyDown :=
  fun x _ => ⟨fun strict => decodeWord_encode strict (.ldVxKey x), exec_ldVxKey_of_no_key_down,
    fun _ hk hmost => exec_ldVxKey_of_pickKey? (State.pickKey?_of_extreme hk hmost)⟩

/-- Settles O40, by the two outcomes of the keypad lookup. -/
theorem skipsOnKeys : Obligations.SkipsOnKeys :=
  fun x s =>
    ⟨fun strict => ⟨decodeWord_encode strict (.skp x), decodeWord_encode strict (.sknp x)⟩,
      fun h => ⟨(exec_skp_of_key h).trans (congrArg Host.Outcome.next (s.advance_skipIf _)),
        (exec_sknp_of_key h).trans (congrArg Host.Outcome.next (s.advance_skipIf_not _))⟩,
      fun h => ⟨exec_skp_of_not_key h, exec_sknp_of_not_key h⟩⟩

/-- Settles O43: each moves one byte, after the default advance. -/
theorem timerTransfers : Obligations.TimerTransfers :=
  fun x _ =>
    ⟨fun strict => ⟨decodeWord_encode strict (.ldVxDt x), decodeWord_encode strict (.ldDtVx x),
      decodeWord_encode strict (.ldStVx x)⟩, rfl, rfl, rfl⟩

end Sys2Proof.Machine
end

section
/-! SUPPORT. The host events other than the cycle (60_exceptions.md R230 to R234): the answer of each on a Running
core. -/

namespace Sys2Proof.Machine

/-! ## The operations behind the events -/

/-- The countdown is the decrement of the natural number, which stops at 0 by itself (60_exceptions.md R230). -/
theorem countDown_eq_ofNat (t : Byte) : countDown t = BitVec.ofNat 8 (t.toNat - 1) := by
  unfold countDown
  split
  case isTrue h => rw [h]; rfl
  case isFalse h => bv_omega

theorem State.tick_eq (s : State) : s.tick =
    { s with dt := BitVec.ofNat 8 (s.dt.toNat - 1), st := BitVec.ofNat 8 (s.st.toNat - 1) } := by
  rw [State.tick, countDown_eq_ofNat, countDown_eq_ofNat]

theorem State.soundActive_iff (s : State) : s.soundActive = true ↔ s.st ≠ 0 := bne_iff_ne

theorem State.setKey?_of_lt (s : State) {k : Nat} (hk : k < 16) (down : Bool) :
    s.setKey? k down = some { s with keys := s.keys.set k down } := dif_pos hk

theorem State.setKey?_of_gt (s : State) {k : Nat} (hk : 15 < k) (down : Bool) : s.setKey? k down = none :=
  dif_neg (Nat.not_lt.2 hk)

theorem State.loadRom_of_le (s : State) {bytes : List Byte} (h : bytes.length ≤ 3584) :
    s.loadRom bytes = (.loaded, s.writeBytes 0x200 bytes) := by
  obtain ⟨-, hload⟩ | ⟨hlong, -⟩ := loadRom_state s bytes
  · exact hload
  · exact absurd h (Nat.not_le.2 hlong)

theorem State.loadRom_of_lt (s : State) {bytes : List Byte} (h : 3584 < bytes.length) :
    s.loadRom bytes = (.romTooLarge bytes.length, s) := by
  obtain ⟨hfits, -⟩ | ⟨-, hload⟩ := loadRom_state s bytes
  · exact absurd hfits (Nat.not_le.2 h)
  · exact hload

/-! ## The events on a Running core -/

/-- The event that puts key k down or up. -/
def Event.key (k : Nat) : Bool → Event
  | true => .keyDown k
  | false => .keyUp k

section events

variable {s : State} {k : Nat}

theorem applyEvent_tick (hrun : s.Running) : applyEvent .tick s = .next s.tick := by
  rw [applyEvent, hrun]

theorem applyEvent_loadRom (hrun : s.Running) (bytes : List Byte) :
    applyEvent (.loadRom bytes) s = .next (s.loadRom bytes).2 := by
  rw [applyEvent, hrun]

theorem loadResult_eq (hrun : s.Running) (bytes : List Byte) : loadResult bytes s = (s.loadRom bytes).1 := by
  rw [loadResult, hrun]

theorem applyEvent_key_of_lt (hrun : s.Running) (hk : k < 16) (down : Bool) :
    applyEvent (.key k down) s = .next { s with keys := s.keys.set k down } := by
  cases down <;> simp only [Event.key, applyEvent, hrun, s.setKey?_of_lt hk]

theorem applyEvent_key_of_gt (hrun : s.Running) (hk : 15 < k) (down : Bool) :
    applyEvent (.key k down) s = .refused (.keyEventOutOfRange k) := by
  cases down <;> simp only [Event.key, applyEvent, hrun, s.setKey?_of_gt hk]

/-- Of two events on one key the last decides (60_exceptions.md R233). -/
theorem runEvents_key_key (hrun : s.Running) (hk : k < 16) (first last : Bool) :
    runEvents [.key k first, .key k last] s = .next { s with keys := s.keys.set k last } := by
  have hlast := applyEvent_key_of_lt (s := { s with keys := s.keys.set k first }) hrun hk last
  rw [runEvents_cons (applyEvent_key_of_lt hrun hk first), runEvents_cons hlast, runEvents_nil, Vector.set_set]

end events

/-- The framebuffer read has no effect in either status (60_exceptions.md R234, R236). -/
theorem applyEvent_readFramebuffer (s : State) : applyEvent .readFramebuffer s = .next s := by
  unfold applyEvent
  cases s.status with
  | running => rfl
  | faulted => rfl

/-- Settles O46: a ROM that fits is a store of its bytes from 0x200, a longer one is turned away. -/
theorem romLoadCopiesOrRejects : Obligations.RomLoadCopiesOrRejects := by
  intro s bytes hrun
  rw [loadResult_eq hrun, applyEvent_loadRom hrun]
  constructor
  · intro hfits
    rw [s.loadRom_of_le hfits]
    exact ⟨rfl, _, rfl, rfl, fun a => s.writeBytes_readByte 0x200 a bytes⟩
  · intro hlong
    rw [s.loadRom_of_lt hlong]
    exact ⟨rfl, rfl⟩

/-- Settles O44, by the countdown of each timer. -/
theorem tickCountsBothTimersDown : Obligations.TickCountsBothTimersDown :=
  fun s hrun => ⟨(applyEvent_tick hrun).trans (congrArg Host.Outcome.next s.tick_eq), s.soundActive_iff⟩

/-- Settles O45: a key event sets its key, or is refused when the index is above 15. -/
theorem keyEventsSetOneKey : Obligations.KeyEventsSetOneKey := by
  refine fun s k hrun => ⟨fun hk => ?_, fun hk t => ?_⟩
  · exact ⟨applyEvent_key_of_lt hrun hk true, applyEvent_key_of_lt hrun hk false,
      runEvents_key_key hrun hk true false, runEvents_key_key hrun hk false true⟩
  · have hrefused (down : Bool) : applyEvent (.key k down) s ≠ .next t := by
      rw [applyEvent_key_of_gt hrun hk]
      nofun
    exact ⟨hrefused true, hrefused false⟩

/-- Settles O47: the snapshot the host reads is the framebuffer. -/
theorem framebufferReadChangesNothing : Obligations.FramebufferReadChangesNothing :=
  fun s => ⟨applyEvent_readFramebuffer s, rfl⟩

end Sys2Proof.Machine
end

section
/-! SUPPORT. Decoding the bytes of an instruction, and the words written out from the opcode map (30_encoding.md R70 to
R75). -/

namespace Sys2Proof

/-- The decoder reads the bytes of a word as that word, whatever follows them (20_memory.md R53). -/
theorem decode_bytes_of_word {strict : Bool} {w : Word} {i : Instr} (hdec : decodeWord strict w = .ok i)
    (rest : List Byte) : decode strict (highByte w :: lowByte w :: rest) = .ok (i, rest) := by
  simp only [decode, wordOfBytes_high_low, hdec]

/-- Settles O2: the two bytes form the word of the instruction again, and the decoder undoes the encoder. -/
theorem decodeEncodeRoundTrip : Obligations.DecodeEncodeRoundTrip :=
  fun strict i rest => decode_bytes_of_word (decodeWord_encode strict i) rest

/-- Settles O1: the decoder run on each of the words. -/
theorem sampleWordsDecode : Obligations.SampleWordsDecode := by
  unfold Obligations.SampleWordsDecode
  decide

end Sys2Proof
end

section
/-! SUPPORT. What every instruction leaves as it was (10_state.md R20 to R32; 20_memory.md R61), by cases on the shapes
of its next state. -/

namespace Sys2Proof.Machine

section registers

variable {i : Instr} {x : Reg}

theorem writesV_of_setsOnly (hi : SetsOnly x i) : WritesV i x := by
  cases i
  case ldImm | addImm | ldReg | orReg | andReg | xorReg | ldVxDt | ldVxKey => exact hi.symm
  all_goals exact False.elim hi

theorem writesV_of_setsWithFlag (hi : SetsWithFlag x i) : WritesV i x ∧ WritesV i VF := by
  cases i
  case addReg | subReg | shrReg | subnReg | shlReg => exact ⟨.inl hi.symm, .inr rfl⟩
  all_goals exact False.elim hi

/-- A write to a register leaves every other one. -/
theorem State.setV_getV_of_ne (s : State) {j : Reg} (b : Byte) (h : j ≠ x) : (s.setV x b).getV j = s.getV j := by
  rw [State.setV_getV, if_neg h]

end registers

section frames

variable {i : Instr} {s t : State}

theorem exec_getV_of_not_writesV {j : Reg} (h : exec i s = .next t) (hj : ¬WritesV i j) : t.getV j = s.getV j := by
  cases exec_effect h
  case skip c hi => exact congrArg (·[j.val]) (State.skipIf_v ..)
  case set x b hi =>
    exact s.advance.setV_getV_of_ne b fun hjx => hj (hjx ▸ writesV_of_setsOnly hi)
  case flag x b c hi =>
    obtain ⟨hx, hflag⟩ := writesV_of_setsWithFlag hi
    have hjf : j ≠ VF := fun e => hj (e ▸ hflag)
    have hjx : j ≠ x := fun e => hj (e ▸ hx)
    rw [State.setResultThenFlag_getV, if_neg hjf, if_neg hjx, State.advance_getV]
  case rnd x kk r => exact s.advance.setV_getV_of_ne (r &&& kk) hj
  case drw fb c => exact State.setV_getV_of_ne { s.advance with fb := fb } (flagByte c) hj
  case load x hin => exact (s.loadBlock_getElem x s.i.toNat j.val j.isLt).trans (if_neg hj)
  all_goals rfl

theorem exec_readByte_of_not_stored {a : Nat} (h : exec i s = .next t)
    (ha : ¬(s.i.toNat ≤ a ∧ a < s.i.toNat + StoredLength i)) : t.readByte a = s.readByte a := by
  cases exec_effect h
  case skip => exact State.skipIf_readByte ..
  case bcd => exact s.advance.writeBytes_readByte_outside (by simp only [StoredLength, bcdDigits_length] at *; omega)
  case store =>
    exact s.advance.writeBytes_readByte_outside (by simp only [StoredLength, State.regBlock_length] at *; omega)
  all_goals rfl

theorem exec_i (h : exec i s = .next t) : t.i = s.i ∨ (∃ nnn, i = .ldI nnn) ∨ ∃ x, i = .addI x ∨ i = .ldFont x := by
  cases exec_effect h
  case skip => exact .inl (State.skipIf_i ..)
  case ldI nnn => exact .inr (.inl ⟨nnn, rfl⟩)
  case addI x _ => exact .inr (.inr ⟨x, .inl rfl⟩)
  case font x => exact .inr (.inr ⟨x, .inr rfl⟩)
  all_goals exact .inl rfl

theorem exec_sp (h : exec i s = .next t) : t.sp = s.sp ∨ (∃ nnn, i = .call nnn ∧ t.sp.val = s.sp.val + 1) ∨
    (i = .ret ∧ s.sp.val = t.sp.val + 1) := by
  cases exec_effect h
  case skip => exact .inl (State.skipIf_sp ..)
  case call nnn _ => exact .inr (.inl ⟨nnn, rfl, rfl⟩)
  case ret hsp => exact .inr (.inr ⟨rfl, (Nat.sub_add_cancel hsp).symm⟩)
  all_goals exact .inl rfl

/-- The stack changes only by the push of a call (40_cycle_and_control.md R107). -/
theorem exec_stack (h : exec i s = .next t) : t.stack = s.stack ∨
    ∃ nnn, ∃ _ : s.sp.val < 16, i = .call nnn ∧ t.stack = s.stack.set s.sp.val (s.pc + 2) := by
  cases exec_effect h
  case skip => exact .inl (State.skipIf_stack ..)
  case call nnn hsp => exact .inr ⟨nnn, hsp, rfl, rfl⟩
  all_goals exact .inl rfl

theorem exec_dt (h : exec i s = .next t) : t.dt = s.dt ∨ ∃ x, i = .ldDtVx x := by
  cases exec_effect h
  case skip => exact .inl (State.skipIf_dt ..)
  case dt x => exact .inr ⟨x, rfl⟩
  all_goals exact .inl rfl

theorem exec_st (h : exec i s = .next t) : t.st = s.st ∨ ∃ x, i = .ldStVx x := by
  cases exec_effect h
  case skip => exact .inl (State.skipIf_st ..)
  case st x => exact .inr ⟨x, rfl⟩
  all_goals exact .inl rfl

theorem exec_fb (h : exec i s = .next t) : t.fb = s.fb ∨ i = .cls ∨ ∃ x y n, i = .drw x y n := by
  cases exec_effect h
  case skip => exact .inl (State.skipIf_fb ..)
  case cls => exact .inr (.inl rfl)
  case drw x y n _ _ => exact .inr (.inr ⟨x, y, n, rfl⟩)
  all_goals exact .inl rfl

theorem exec_keys (h : exec i s = .next t) : t.keys = s.keys := by
  cases exec_effect h
  case skip => exact State.skipIf_keys ..
  all_goals rfl

theorem exec_config (h : exec i s = .next t) : t.config = s.config := by
  cases exec_effect h
  case skip => exact State.skipIf_config ..
  all_goals rfl

theorem exec_draws (h : exec i s = .next t) : t.draws = s.draws ∨ ∃ x kk, i = .rnd x kk := by
  cases exec_effect h
  case skip => exact .inl (State.skipIf_draws ..)
  case rnd x kk _ => exact .inr ⟨x, kk, rfl⟩
  all_goals exact .inl rfl

/-- The status changes only by a fault, and then nothing else does (60_exceptions.md R222). -/
theorem exec_status (h : exec i s = .next t) :
    t.status = s.status ∨ ∃ f, t = { s with status := .faulted f } := by
  rcases exec_raises_or_completes h with ⟨f, hraise, -⟩ | ⟨hstatus, -⟩
  · exact .inr ⟨f, hraise⟩
  · exact .inl hstatus

end frames

/-- Settles O49, by the registers each shape of a next state writes. -/
theorem onlyNamedRegistersChange : Obligations.OnlyNamedRegistersChange :=
  fun _ _ _ _ => exec_getV_of_not_writesV

/-- Settles O50: an instruction that stores nothing has an empty block at I. -/
theorem onlyStoresChangeMemory : Obligations.OnlyStoresChangeMemory :=
  fun _ _ _ _ => exec_readByte_of_not_stored

/-- Settles O51, field by field; the slot a call pushes to is the one at SP. -/
theorem onlyNamedSpecialRegistersChange : Obligations.OnlyNamedSpecialRegistersChange := by
  refine fun i s t h => ⟨exec_i h, exec_sp h, fun j => ?_, exec_dt h, exec_st h⟩
  rcases exec_stack h with hstack | ⟨nnn, hsp, hcall, hstack⟩
  · exact .inl (by rw [hstack])
  · by_cases hj : j.val = s.sp.val
    · exact .inr ⟨nnn, hcall, hj⟩
    · exact .inl (by rw [hstack, Vector.getElem_set_ne hsp j.isLt (Ne.symm hj)])

/-- Settles O52, field by field. -/
theorem onlyNamedDevicesChange : Obligations.OnlyNamedDevicesChange :=
  fun _ _ _ h => ⟨exec_fb h, exec_keys h, exec_status h, exec_config h, exec_draws h⟩

end Sys2Proof.Machine
end

section
/-! SUPPORT. Reset, and the invariant `State.Inv` along every sequence of host events (70_reset_and_hazards.md R260;
40_cycle_and_control.md R107, R109; 60_exceptions.md R235). -/

namespace Sys2Proof.Machine

/-- Settles O15: the reset memory lists no cell, so every address reads as its reset contents. -/
theorem resetState : Obligations.ResetState :=
  ⟨fun _ _ => rfl, rfl, rfl, Framebuffer.get_blank, fun k => Vector.getElem_replicate k.isLt,
    fun x => Vector.getElem_replicate x.isLt, rfl, rfl, fun j => Vector.getElem_replicate j.isLt, rfl, rfl, rfl⟩

/-- Settles O16: the empty memory is canonical, and PC and the slots are small numbers. -/
theorem resetIsSound : Obligations.ResetIsSound := by
  unfold Obligations.ResetIsSound
  decide

section invariant

variable {i : Instr} {s t : State}

/-- A store inside memory keeps the canonical form. -/
theorem State.writeBytes_keeps_wf {a : Nat} {bs : List Byte} (hin : a + bs.length ≤ 0x1000)
    (hmem : s.mem.wf s.config.font = true) : (s.writeBytes a bs).mem.wf s.config.font = true :=
  Memory.writeBytes_wf s.config.font s.mem a bs hin hmem

theorem exec_keeps_wf (h : exec i s = .next t) (hmem : s.mem.wf s.config.font = true) :
    t.mem.wf t.config.font = true := by
  rw [exec_config h]
  cases exec_effect h
  case skip => rwa [State.skipIf_mem]
  case bcd x hin => exact s.advance.writeBytes_keeps_wf hin hmem
  case store x hin => exact s.advance.writeBytes_keeps_wf (by rwa [State.regBlock_length]) hmem
  all_goals exact hmem

theorem word_add_toNat_le (w d : Word) : (w + d).toNat ≤ w.toNat + d.toNat := by
  rw [BitVec.toNat_add]
  exact Nat.mod_le ..

/-- The highest PC an instruction leaves is that of JP V0: 0xFF + 0xFFF (40_cycle_and_control.md R109). -/
theorem pcAfter_toNat_le (hpc : s.pc.toNat ≤ 0xFFE) (hstack : ∀ j : Fin 16, s.stack[j.val].toNat ≤ 0x1000)
    (hafter : PcAfter i s t) : t.pc.toNat ≤ 0x10FE := by
  have htwo : (s.pc + 2).toNat ≤ s.pc.toNat + 2 := word_add_toNat_le s.pc 2
  have hfour : (s.pc + 4).toNat ≤ s.pc.toNat + 4 := word_add_toNat_le s.pc 4
  cases i
  case jp nnn | call nnn =>
    have htarget : t.pc = addrOperand nnn := hafter
    rw [htarget, addrOperand_toNat]
    omega
  case jpV0 nnn =>
    have htarget : t.pc = byteOperand s.v[0] + addrOperand nnn := hafter
    have hsum := word_add_toNat_le (byteOperand s.v[0]) (addrOperand nnn)
    rw [byteOperand_toNat, addrOperand_toNat, ← htarget] at hsum
    omega
  case ret =>
    obtain ⟨hsp, htarget⟩ := hafter
    have hslot := hstack ⟨s.sp.val - 1, by omega⟩
    rw [htarget]
    exact hslot.trans (by decide)
  case seImm | sneImm | seReg | sneReg | skp | sknp =>
    rcases hafter with htarget | htarget <;> rw [htarget] <;> omega
  case ldVxKey => rcases hafter with htarget | htarget <;> rw [htarget] <;> omega
  all_goals
    have htarget : t.pc = s.pc + 2 := hafter
    rw [htarget]
    omega

theorem exec_keeps_inv (hinv : s.Inv) (hpc : s.pc.toNat ≤ 0xFFE) (h : exec i s = .next t) : t.Inv := by
  obtain ⟨hmem, hpcInv, hstack⟩ := hinv
  refine ⟨exec_keeps_wf h hmem, ?_, fun j => ?_⟩
  · rcases exec_raises_or_completes h with ⟨f, rfl, -⟩ | ⟨-, hafter⟩
    · exact hpcInv
    · exact pcAfter_toNat_le hpc hstack hafter
  · rcases exec_stack h with hsame | ⟨nnn, hsp, -, hpush⟩
    · rw [hsame]
      exact hstack j
    · have hreturn := word_add_toNat_le s.pc 2
      rw [hpush, Vector.getElem_set]
      split
      · exact hreturn.trans (Nat.add_le_add_right hpc 2)
      · exact hstack j

theorem advance_keeps_inv (hinv : s.Inv) (hpc : s.pc.toNat ≤ 0xFFE) : s.advance.Inv := by
  obtain ⟨hmem, -, hstack⟩ := hinv
  have hnext : (s.pc + 2).toNat ≤ s.pc.toNat + 2 := word_add_toNat_le s.pc 2
  exact ⟨hmem, hnext.trans (by omega), hstack⟩

/-- A cycle that runs something has passed the bound on PC, so no PC above 0x10FE is reached
(40_cycle_and_control.md R101, R109). -/
theorem step_keeps_inv (hinv : s.Inv) (h : step s = .next t) : t.Inv := by
  rcases step_cases h with ⟨f, -, rfl⟩ | ⟨-, f, -, rfl⟩ | ⟨-, hfetch, i, -, hexec⟩ | ⟨-, hfetch, -, rfl⟩
  · exact hinv
  · exact hinv
  · obtain ⟨hpc, -⟩ := fetchFault?_eq_none.1 hfetch
    exact exec_keeps_inv hinv hpc hexec
  · obtain ⟨hpc, -⟩ := fetchFault?_eq_none.1 hfetch
    exact advance_keeps_inv hinv hpc

/-- An accepted ROM ends at 0x1000 at the latest (60_exceptions.md R232). -/
theorem loadRom_keeps_inv (bytes : List Byte) (hinv : s.Inv) : (s.loadRom bytes).2.Inv := by
  obtain ⟨hmem, hpc, hstack⟩ := hinv
  obtain ⟨hfits, hload⟩ | ⟨-, hload⟩ := loadRom_state s bytes
  · rw [hload]
    exact ⟨s.writeBytes_keeps_wf (by omega) hmem, hpc, hstack⟩
  · rw [hload]
    exact ⟨hmem, hpc, hstack⟩

theorem applyEvent_keeps_inv {e : Event} (hinv : s.Inv) (h : applyEvent e s = .next t) : t.Inv := by
  rcases applyEvent_cases h with ⟨f, -, rfl⟩ | ⟨-, hevent⟩
  · exact hinv
  rcases hevent with ⟨-, hstep⟩ | ⟨-, rfl⟩ | ⟨k, down, -, -, rfl⟩ | ⟨bytes, -, rfl⟩ | ⟨-, rfl⟩
  · exact step_keeps_inv hinv hstep
  · exact hinv
  · exact hinv
  · exact loadRom_keeps_inv bytes hinv
  · exact hinv

end invariant

/-- Settles O17: every event keeps the invariant, so every sequence does. -/
theorem invariantIsKept : Obligations.InvariantIsKept :=
  fun _ hinv => ⟨fun _ => step_keeps_inv hinv,
    fun _ _ => runEvents_keeps (fun _ _ _ => applyEvent_keeps_inv) hinv⟩

end Sys2Proof.Machine
end

section
/-! SUPPORT. Code that was just stored (20_memory.md R53, R67; 70_reset_and_hazards.md R265). -/

namespace Sys2Proof.Machine

theorem wordOfBits_toNat (w : Word) : wordOfBits 16 w.toNat = w := by
  rw [wordOfBits, Nat.mod_eq_of_lt w.isLt, BitVec.ofNat_toNat, BitVec.setWidth_eq]

/-- Settles O8: the word at PC is the one placed there, and placing it keeps the status, PC and P_ODD_PC. -/
theorem placedWordRunsNext : Obligations.PlacedWordRunsNext := by
  intro s w i hrun hfetch hdec
  refine step_eq_exec (s := s.withFetchWord 16 w.toNat) hrun hfetch ?_
  rw [State.withFetchWord, wordOfBits_toNat, State.placeWord_instrWord]
  exact hdec

section stored

variable {s : State} {x : Reg}

/-- Fx55 with I at the next instruction leaves PC there, and there the word of V0 and V1. -/
theorem storeRegs_at_next_instrWord (hx : 1 ≤ x.val) (hi : s.i = s.pc + 2) :
    (s.advance.writeBytes s.i.toNat (s.regBlock x)).instrWord = wordOfBytes s.v[0] s.v[1] := by
  have hstored (j : Nat) (hj : j < (s.regBlock x).length) :
      (s.advance.writeBytes s.i.toNat (s.regBlock x)).readByte ((s.pc + 2).toNat + j) = (s.regBlock x)[j] := by
    rw [← hi]
    exact s.advance.writeBytes_readByte_inside hj
  have hlen : (s.regBlock x).length = x.val + 1 := s.regBlock_length x
  have hv0 := hstored 0 (by omega)
  have hv1 := hstored 1 (by omega)
  rw [State.regBlock_getElem] at hv0 hv1
  exact congrArg₂ wordOfBytes hv0 hv1

theorem canFetch_add_two (hfetch : s.CanFetch) (hpc : (s.pc + 2).toNat ≤ 0xFFE) : s.advance.CanFetch := by
  obtain ⟨hin, hparity⟩ := hfetch
  refine ⟨hpc, hparity.imp_right fun heven => ?_⟩
  have hnext : (s.pc + 2).toNat = s.pc.toNat + 2 := by bv_omega
  rw [State.advance_pc, hnext, Nat.add_mod_right, heven]

end stored

/-- Settles O9: the bytes stored from I = pc0 + 2 are V0 and V1, and the next cycle fetches them. -/
theorem storedCodeRunsNext : Obligations.StoredCodeRunsNext := by
  intro s t x i hrun hfetch hx hi hin hdec hexec
  rw [exec_storeRegs_of_le hin] at hexec
  cases hexec
  have hpc : (s.pc + 2).toNat ≤ 0xFFE := by
    rw [hi] at hin
    omega
  refine step_eq_exec (s := s.advance.writeBytes s.i.toNat (s.regBlock x)) hrun (canFetch_add_two hfetch hpc) ?_
  rw [storeRegs_at_next_instrWord hx hi]
  exact hdec

end Sys2Proof.Machine
end

section
/-! SUPPORT. Which faults there are, and that the machine never stops (60_exceptions.md R221, R224, R230 to R236). -/

namespace Sys2Proof.Machine

/-- Settles O12: the shape of a next state that is a fault carries the row of the fault table. -/
theorem eachInstructionRaisesItsOwnCause : Obligations.EachInstructionRaisesItsOwnCause := by
  intro i s t f hrun hexec hf
  rcases exec_raises_or_completes hexec with ⟨g, rfl, hcause, -⟩ | ⟨hstatus, -⟩
  · obtain rfl : g = f := RunStatus.faulted.inj hf
    exact hcause
  · exact nomatch hf.symm.trans (hstatus.trans hrun)

/-! ## A Faulted core -/

section faulted

variable {s : State} {f : Fault}

theorem step_of_faulted (hs : s.status = .faulted f) : step s = .next s := by
  simp only [step, hs, execHalted]

theorem applyEvent_of_faulted (hs : s.status = .faulted f) (e : Event) : applyEvent e s = .next s := by
  unfold applyEvent
  rw [hs]

theorem runEvents_of_faulted (hs : s.status = .faulted f) (events : List Event) : runEvents events s = .next s := by
  induction events with
  | nil => exact runEvents_nil s
  | cons e rest ih => rw [runEvents_cons (applyEvent_of_faulted hs e), ih]

end faulted

/-- Settles O13: every event answers the state itself, so every sequence does. -/
theorem faultedCoreIsTerminal : Obligations.FaultedCoreIsTerminal :=
  fun _ _ hs => ⟨step_of_faulted hs, applyEvent_of_faulted hs, runEvents_of_faulted hs⟩

/-! ## There is always a next state -/

theorem exec_has_next (i : Instr) (s : State) : ∃ t, exec i s = .next t := by
  cases i
  case ret =>
    rcases Nat.eq_zero_or_pos s.sp.val with hempty | hpos
    · exact ⟨_, exec_ret_of_empty hempty⟩
    · exact ⟨_, exec_ret_of_pos hpos⟩
  case call nnn =>
    rcases Nat.lt_or_ge s.sp.val 16 with hroom | hfull
    · exact ⟨_, exec_call_of_lt nnn hroom⟩
    · exact ⟨_, exec_call_of_full nnn (by omega)⟩
  case drw x y n =>
    by_cases hin : n.val = 0 ∨ s.i.toNat + n.val ≤ 0x1000
    · exact ⟨_, exec_drw_of_le hin⟩
    · exact ⟨_, exec_drw_of_lt (by omega) (by omega)⟩
  case skp x =>
    rcases Nat.lt_or_ge (s.getV x).toNat 16 with hkey | hnokey
    · exact ⟨_, exec_skp_of_key hkey⟩
    · exact ⟨_, exec_skp_of_not_key hnokey⟩
  case sknp x =>
    rcases Nat.lt_or_ge (s.getV x).toNat 16 with hkey | hnokey
    · exact ⟨_, exec_sknp_of_key hkey⟩
    · exact ⟨_, exec_sknp_of_not_key hnokey⟩
  case ldVxKey x =>
    cases hpick : s.pickKey? with
    | none => exact ⟨_, exec_ldVxKey_of_no_key_down ((State.pickKey?_eq_none s).1 hpick)⟩
    | some k => exact ⟨_, exec_ldVxKey_of_pickKey? hpick⟩
  case addI x =>
    rcases Nat.lt_or_ge 0xFFFF (s.i.toNat + (s.getV x).toNat) with hout | hin
    · exact ⟨_, exec_addI_of_lt hout⟩
    · exact ⟨_, exec_addI_of_le hin⟩
  case ldBcd x =>
    rcases Nat.lt_or_ge 0xFFF (s.i.toNat + 2) with hout | hin
    · exact ⟨_, exec_ldBcd_of_lt hout⟩
    · exact ⟨_, exec_ldBcd_of_le hin⟩
  case storeRegs x =>
    rcases Nat.lt_or_ge 0xFFF (s.i.toNat + x.val) with hout | hin
    · exact ⟨_, exec_storeRegs_of_lt hout⟩
    · exact ⟨_, exec_storeRegs_of_le hin⟩
  case loadRegs x =>
    rcases Nat.lt_or_ge 0xFFF (s.i.toNat + x.val) with hout | hin
    · exact ⟨_, exec_loadRegs_of_lt hout⟩
    · exact ⟨_, exec_loadRegs_of_le hin⟩
  all_goals exact ⟨_, rfl⟩

theorem step_has_next (s : State) : ∃ t, step s = .next t := by
  cases hstatus : s.status with
  | faulted f => exact ⟨s, step_of_faulted hstatus⟩
  | running =>
    cases hfault : s.fetchFault? with
    | some f => exact ⟨_, step_eq_raise hstatus hfault⟩
    | none =>
      have hfetch : s.CanFetch := fetchFault?_eq_none.1 hfault
      cases hdec : decodeWord s.config.strictDecode s.instrWord with
      | ok i => exact step_eq_exec hstatus hfetch hdec ▸ exec_has_next i s
      | error e => exact ⟨_, step_eq_advance hstatus hfetch hdec⟩

theorem applyEvent_cycle {s : State} (hrun : s.Running) : applyEvent .cycle s = step s := by
  rw [applyEvent, hrun]

/-- The admitted events are those with key indices up to 15 (60_exceptions.md R233). -/
theorem Event.admitted_iff (e : Event) :
    e.admitted = true ↔ ∀ k, e = .keyDown k ∨ e = .keyUp k → k ≤ 15 := by
  cases e
  case keyDown k | keyUp k => simp [Event.admitted, keyIndexOk, Nat.lt_succ_iff]
  all_goals simp [Event.admitted]

theorem applyEvent_has_next {e : Event} (hadmitted : e.admitted = true) (s : State) :
    ∃ t, applyEvent e s = .next t := by
  cases hstatus : s.status with
  | faulted f => exact ⟨s, applyEvent_of_faulted hstatus e⟩
  | running =>
    cases e with
    | cycle => exact applyEvent_cycle hstatus ▸ step_has_next s
    | tick => exact ⟨_, applyEvent_tick hstatus⟩
    | keyDown k => exact ⟨_, applyEvent_key_of_lt hstatus (of_decide_eq_true hadmitted) true⟩
    | keyUp k => exact ⟨_, applyEvent_key_of_lt hstatus (of_decide_eq_true hadmitted) false⟩
    | loadRom bytes => exact ⟨_, applyEvent_loadRom hstatus bytes⟩
    | readFramebuffer => exact ⟨s, applyEvent_readFramebuffer s⟩

/-- Settles O14, by the outcomes of the cycle and of the events. -/
theorem machineNeverStops : Obligations.MachineNeverStops :=
  ⟨step_has_next, fun e s hkeys => applyEvent_has_next (e.admitted_iff.2 hkeys) s⟩

/-- An event other than a cycle leaves the status (60_exceptions.md R230 to R235). -/
theorem applyEvent_status_of_ne_cycle {e : Event} {s t : State} (hne : e ≠ .cycle) (h : applyEvent e s = .next t) :
    t.status = s.status := by
  rcases applyEvent_cases h with ⟨f, -, rfl⟩ | ⟨-, hevent⟩
  · rfl
  rcases hevent with ⟨hcycle, -⟩ | ⟨-, rfl⟩ | ⟨k, down, -, -, rfl⟩ | ⟨bytes, -, rfl⟩ | ⟨-, rfl⟩
  · exact absurd hcycle hne
  · rfl
  · rfl
  · obtain ⟨-, hload⟩ | ⟨-, hload⟩ := loadRom_state s bytes
    · rw [hload]; rfl
    · rw [hload]
  · rfl

/-- Settles O48, by induction on the sequence: each event has a next state and leaves the status. -/
theorem onlyCyclesRaiseFaults : Obligations.OnlyCyclesRaiseFaults := by
  intro events
  induction events with
  | nil => exact fun s hrun _ => hrun
  | cons e rest ih =>
    intro s hrun hevents
    obtain ⟨hne, hkeys⟩ := hevents e List.mem_cons_self
    obtain ⟨t, ht⟩ := applyEvent_has_next (e.admitted_iff.2 hkeys) s
    have hrun' : t.Running := (applyEvent_status_of_ne_cycle hne ht).trans hrun
    exact ⟨hrun, t, ht, ih t hrun' fun e' he' => hevents e' (List.mem_cons_of_mem e he')⟩

/-! ## Sequences of host events (60_exceptions.md R235) -/

theorem runEvents_has_next (events : List Event) (s : State) (hadmitted : ∀ e ∈ events, e.admitted = true) :
    ∃ t, runEvents events s = .next t := by
  induction events generalizing s with
  | nil => exact ⟨s, runEvents_nil s⟩
  | cons e rest ih =>
    obtain ⟨t, ht⟩ := applyEvent_has_next (hadmitted e List.mem_cons_self) s
    rw [runEvents_cons ht]
    exact ih t fun e' he' => hadmitted e' (List.mem_cons_of_mem e he')

theorem runStream_has_next {events : Nat → Event} (hadmitted : ∀ n, (events n).admitted = true) (s : State)
    (n : Nat) : ∃ t, runStream events s n = .next t := by
  induction n with
  | zero => exact ⟨s, runStream_zero events s⟩
  | succ n ih =>
    obtain ⟨t, ht⟩ := ih
    rw [runStream_succ ht]
    exact applyEvent_has_next (hadmitted n) t

/-- Settles O55: the trace of an infinite sequence is what its first events come to, at every length. -/
theorem everyEventSequenceHasARun : Obligations.EveryEventSequenceHasARun := by
  refine ⟨runEvents_has_next, fun events s hadmitted => ?_⟩
  choose trace htrace using runStream_has_next hadmitted s
  refine ⟨trace, (Host.Outcome.next.inj (htrace 0)).symm, fun n => ?_, htrace, fun hinv n => ?_⟩
  · rw [← runStream_succ (htrace n), htrace (n + 1)]
  · exact runStream_keeps (fun _ _ _ => applyEvent_keeps_inv) hinv (htrace n)

end Sys2Proof.Machine
end

section
/-! SUPPORT. Round trips: a call and its return, a store and its load, a sprite drawn twice, a wait and its key
(95_test_vectors.md W5, W6, W7, W10). -/

namespace Sys2Proof.Machine

/-- Settles O22: the return pops the slot the call pushed, which lies above the slots of the callers. -/
theorem callThenReturnComesBack : Obligations.CallThenReturnComesBack := by
  intro nnn s t u hroom hcall hsp hstack
  cases (exec_call_of_lt nnn hroom).symm.trans hcall
  have hdepth : u.sp.val = s.sp.val + 1 := congrArg Fin.val hsp
  have hslot : u.sp.val - 1 = s.sp.val := by omega
  refine ⟨_, exec_ret_of_pos (by omega), ?_, Fin.ext hslot, fun j hj => ?_⟩
  · simp only [hstack, hslot, Vector.getElem_set_self]
  · simp only [hstack, Vector.getElem_set_ne hroom j.isLt (Nat.ne_of_gt hj)]

/-- Settles O36: the bytes the load reads are those the store put there. -/
theorem storeThenLoadRestores : Obligations.StoreThenLoadRestores := by
  intro x s t u hin hstore hi hmem
  cases (exec_storeRegs_of_le hin).symm.trans hstore
  have hin' : u.i.toNat + x.val ≤ 0xFFF := by rwa [hi]
  refine ⟨_, exec_loadRegs_of_le hin', hi, fun j hj => ?_, fun j hj => ?_⟩
  · have hlt : j.val < (s.regBlock x).length := by
      rw [State.regBlock_length]
      exact Nat.lt_succ_of_le hj
    rw [State.loadBlock_getElem, if_pos (Fin.le_def.1 hj), hmem, hi, s.advance.writeBytes_readByte_inside hlt,
      State.regBlock_getElem]
  · rw [State.loadBlock_getElem, if_neg (Nat.not_le.2 hj)]

/-! ## A sprite drawn twice (44_display.md R181, R182, R186) -/

section drawTwice

variable {x y : Reg} {n : Fin 16} {s t : State}

/-- The pixels a sprite falls on depend on the memory and on the place only. -/
theorem SpriteCovers.congr_readByte {count address x y : Nat} {row : Fin 32} {col : Fin 64}
    (hmem : ∀ a, t.readByte a = s.readByte a) :
    SpriteCovers t count address x y row col ↔ SpriteCovers s count address x y row col := by
  simp only [SpriteCovers, hmem]

/-- DRW inverts the pixels its sprite falls on (44_display.md R181, R185). -/
theorem State.drwPlot_get (s : State) (row : Fin 32) (col : Fin 64) :
    Framebuffer.get (s.drwPlot x y n).1 row col = true ↔ ¬(Framebuffer.get s.fb row col = true ↔
      SpriteCovers s n.val s.i.toNat (s.getV x).toNat (s.getV y).toNat row col) :=
  drawSprite_get s n.val _ _ _ (by omega) row col

theorem State.drwPlot_collision (s : State) : (s.drwPlot x y n).2 = true ↔ ∃ row col,
    Framebuffer.get s.fb row col = true ∧ Framebuffer.get (s.drwPlot x y n).1 row col = false :=
  drawSprite_collision_iff_erases s _ _ _ (by omega)

/-- The same sprite at the same place, drawn over what the first draw left, gives the screen from before. -/
theorem State.drwPlot_twice (hmem : ∀ a, t.readByte a = s.readByte a) (hi : t.i = s.i) (hx : t.getV x = s.getV x)
    (hy : t.getV y = s.getV y) (hfb : t.fb = (s.drwPlot x y n).1) : (t.drwPlot x y n).1 = s.fb := by
  refine Framebuffer.ext_get fun row col => Bool.eq_iff_iff.2 ?_
  rw [t.drwPlot_get, hfb, s.drwPlot_get, SpriteCovers.congr_readByte hmem, hi, hx, hy]
  tauto

end drawTwice

theorem flagByte_eq_one_iff (c : Bool) : flagByte c = 1 ↔ c = true := by
  cases c <;> decide

/-- Settles O39: the second plot undoes the first, so the pixels it erases are those the first set. -/
theorem drawingTwiceRestores : Obligations.DrawingTwiceRestores := by
  intro x y n s t u hin hfirst hx hy hsecond
  have ht := Host.Outcome.next.inj ((exec_drw_of_le hin).symm.trans hfirst)
  have hmem (a : Nat) : t.readByte a = s.readByte a := by rw [← ht]; rfl
  have hi : t.i = s.i := by rw [← ht]
  have hfb : t.fb = (s.drwPlot x y n).1 := by rw [← ht]
  have hrestore : (t.drwPlot x y n).1 = s.fb := State.drwPlot_twice hmem hi hx hy hfb
  cases (exec_drw_of_le (by rwa [hi])).symm.trans hsecond
  refine ⟨hrestore, ?_⟩
  rw [Vector.getElem_set_self, flagByte_eq_one_iff, State.drwPlot_collision, hrestore]
  exact exists₂_congr fun _ _ => and_comm

/-! ## The wait for a key (45_keypad_and_timers.md R203) -/

section keyWait

variable {s : State} {x : Reg}

theorem runEvents_replicate {e : Event} (h : applyEvent e s = .next s) (n : Nat) :
    runEvents (List.replicate n e) s = .next s := by
  induction n with
  | zero => exact runEvents_nil s
  | succ n ih => rw [List.replicate_succ, runEvents_cons h, ih]

/-- The state after a key has gone down (60_exceptions.md R233). -/
def State.pressKey (s : State) (k : Reg) : State := { s with keys := s.keys.set k.val true }

/-- When no key was down before, the one put down is the only one. -/
theorem State.pressKey_keys_iff (hup : ∀ j : Reg, s.keys[j.val] = false) (j k : Reg) :
    (s.pressKey k).keys[j.val] = true ↔ j = k := by
  have hkeys : (s.pressKey k).keys[j.val] = if k.val = j.val then true else s.keys[j.val] :=
    Vector.getElem_set k.isLt j.isLt
  rw [hkeys, hup j]
  simp [Fin.ext_iff, eq_comm]

/-- The only key down is the one taken, whatever P_KEYWAIT_PICK says. -/
theorem State.pressKey_pickKey? (hup : ∀ j : Reg, s.keys[j.val] = false) (k : Reg) :
    (s.pressKey k).pickKey? = some k := by
  refine State.pickKey?_of_extreme ((State.pressKey_keys_iff hup k k).2 rfl) fun j hj => ?_
  obtain rfl := (State.pressKey_keys_iff hup j k).1 hj
  split <;> exact le_rfl

end keyWait

/-- Settles O42: a waiting cycle is the identity, and the key put down is the only one to take. -/
theorem keyWaitSpinsUntilAKey : Obligations.KeyWaitSpinsUntilAKey := by
  intro s x hrun hfetch hdec hup
  refine ⟨fun n => ?_, fun k => ?_⟩
  · refine runEvents_replicate ?_ n
    rw [applyEvent_cycle hrun, step_eq_exec hrun hfetch hdec, exec_ldVxKey_of_no_key_down hup]
  · have hpress : applyEvent (.keyDown k.val) s = .next (s.pressKey k) := applyEvent_key_of_lt hrun k.isLt true
    have hcycle : applyEvent .cycle (s.pressKey k) =
        .next ((s.pressKey k).advance.setV x (BitVec.ofNat 8 k.val)) := by
      rw [applyEvent_cycle (s := s.pressKey k) hrun, step_eq_exec (s := s.pressKey k) hrun hfetch hdec,
        exec_ldVxKey_of_pickKey? (State.pressKey_pickKey? hup k)]
    rw [runEvents_cons hpress, runEvents_cons hcycle]
    rfl

end Sys2Proof.Machine
end

section
/-! SUPPORT. What no instruction reads: ST, and the stack slots at or above SP (10_state.md R26, R28; 60_exceptions.md
R225). -/

namespace Sys2Proof.Machine

/-- The state with another sound timer and another stack. -/
def State.withStAndStack (s : State) (b : Byte) (k : Vector Word 16) : State := { s with st := b, stack := k }

/-- Two stacks hold the same in the slots below n, those on the stack when SP is n (10_state.md R25). -/
def SlotsAgree (n : Nat) (k l : Vector Word 16) : Prop := ∀ j : Fin 16, j.val < n → k[j.val] = l[j.val]

theorem SlotsAgree.mono {m n : Nat} {k l : Vector Word 16} (hmn : m ≤ n) (h : SlotsAgree n k l) :
    SlotsAgree m k l :=
  fun j hj => h j (hj.trans_le hmn)

/-- The same push keeps the agreement, one slot higher (40_cycle_and_control.md R107). -/
theorem SlotsAgree.push {n : Nat} {k l : Vector Word 16} (hn : n < 16) (a : Word) (h : SlotsAgree n k l) :
    SlotsAgree (n + 1) (k.set n a) (l.set n a) := by
  intro j hj
  rw [Vector.getElem_set, Vector.getElem_set]
  split
  · rfl
  · exact h j (by omega)

section unread

variable {i : Instr} {s t : State} (b : Byte) {k : Vector Word 16}

theorem State.withStAndStack_skipIf (c : Bool) :
    (s.withStAndStack b k).advance.skipIf c = (s.advance.skipIf c).withStAndStack b k := by
  cases c <;> rfl

/-- RET reads the slot below SP only (40_cycle_and_control.md R105). -/
theorem exec_ret_withStAndStack (hk : SlotsAgree s.sp.val k s.stack) (h : exec .ret s = .next t) :
    exec .ret (s.withStAndStack b k) = .next (t.withStAndStack b k) := by
  rcases execRet_cases h with ⟨hempty, rfl⟩ | ⟨hpos, rfl⟩
  · exact exec_ret_of_empty (s := s.withStAndStack b k) hempty
  · have hslot : k[s.sp.val - 1] = s.stack[s.sp.val - 1] := hk ⟨s.sp.val - 1, by omega⟩ (Nat.sub_lt hpos one_pos)
    rw [← hslot]
    exact exec_ret_of_pos (s := s.withStAndStack b k) hpos

/-- Besides LD ST, which writes ST, and CALL, which writes a slot, an instruction passes ST and the stack on. -/
theorem exec_withStAndStack (hst : ∀ x, i ≠ .ldStVx x) (hcall : ∀ nnn, i ≠ .call nnn)
    (hk : SlotsAgree s.sp.val k s.stack) (h : exec i s = .next t) :
    exec i (s.withStAndStack b k) = .next (t.withStAndStack b k) := by
  cases i
  case ldStVx x => exact absurd rfl (hst x)
  case call nnn => exact absurd rfl (hcall nnn)
  case ret => exact exec_ret_withStAndStack b hk h
  case seImm | sneImm | seReg | sneReg =>
    cases h
    exact congrArg Host.Outcome.next (State.withStAndStack_skipIf b _)
  case skp x =>
    rcases execSkp_cases h with ⟨hnokey, rfl⟩ | ⟨hkey, rfl⟩
    · exact exec_skp_of_not_key hnokey
    · rw [← State.withStAndStack_skipIf]
      exact exec_skp_of_key (s := s.withStAndStack b k) hkey
  case sknp x =>
    rcases execSknp_cases h with ⟨hnokey, rfl⟩ | ⟨hkey, rfl⟩
    · exact exec_sknp_of_not_key hnokey
    · rw [← State.withStAndStack_skipIf]
      exact exec_sknp_of_key (s := s.withStAndStack b k) hkey
  case drw x y n =>
    rcases execDrw_cases h with ⟨⟨hn, hout⟩, rfl⟩ | ⟨hin, rfl⟩
    · exact exec_drw_of_lt hn.ne' hout
    · exact exec_drw_of_le hin
  case ldVxKey x =>
    rcases execLdVxKey_cases h with ⟨hup, rfl⟩ | ⟨key, hpick, rfl⟩
    · exact exec_ldVxKey_of_no_key_down hup
    · exact exec_ldVxKey_of_pickKey? hpick
  case addI x =>
    rcases execAddI_cases h with ⟨hout, rfl⟩ | ⟨hin, rfl⟩
    · exact exec_addI_of_lt hout
    · exact exec_addI_of_le hin
  case ldBcd x =>
    rcases execLdBcd_cases h with ⟨hout, rfl⟩ | ⟨hin, rfl⟩
    · exact exec_ldBcd_of_lt (Nat.lt_of_succ_lt_succ hout)
    · exact exec_ldBcd_of_le (Nat.le_of_succ_le_succ hin)
  case storeRegs x =>
    rcases execStoreRegs_cases h with ⟨hout, rfl⟩ | ⟨hin, rfl⟩
    · exact exec_storeRegs_of_lt (Nat.lt_of_succ_lt_succ hout)
    · exact exec_storeRegs_of_le (Nat.le_of_succ_le_succ hin)
  case loadRegs x =>
    rcases execLoadRegs_cases h with ⟨hout, rfl⟩ | ⟨hin, rfl⟩
    · exact exec_loadRegs_of_lt (Nat.lt_of_succ_lt_succ hout)
    · exact exec_loadRegs_of_le (Nat.le_of_succ_le_succ hin)
  all_goals cases h; rfl

/-- SP goes up by a call only. -/
theorem exec_sp_le (hcall : ∀ nnn, i ≠ .call nnn) (h : exec i s = .next t) : t.sp.val ≤ s.sp.val := by
  rcases exec_sp h with hsame | ⟨nnn, hi, -⟩ | ⟨-, hpop⟩
  · rw [hsame]
  · exact absurd hi (hcall nnn)
  · omega

theorem exec_stack_eq (hcall : ∀ nnn, i ≠ .call nnn) (h : exec i s = .next t) : t.stack = s.stack := by
  rcases exec_stack h with hsame | ⟨nnn, -, hi, -⟩
  · exact hsame
  · exact absurd hi (hcall nnn)

/-- What an instruction other than LD ST makes of the state with another ST and other free slots: the same next state,
with that ST and a stack that agrees in the slots below the new SP, and everywhere if the stacks were equal. -/
theorem exec_of_unread (hst : ∀ x, i ≠ .ldStVx x) (hk : SlotsAgree s.sp.val k s.stack) (h : exec i s = .next t) :
    ∃ k', exec i (s.withStAndStack b k) = .next (t.withStAndStack b k') ∧ SlotsAgree t.sp.val k' t.stack ∧
      (k = s.stack → k' = t.stack) := by
  by_cases hcall : ∃ nnn, i = .call nnn
  · obtain ⟨nnn, rfl⟩ := hcall
    rcases execCall_cases h with ⟨hfull, rfl⟩ | ⟨hroom, rfl⟩
    · exact ⟨k, exec_call_of_full nnn hfull, hk, id⟩
    · exact ⟨k.set s.sp.val (s.pc + 2), exec_call_of_lt (s := s.withStAndStack b k) nnn hroom,
        hk.push hroom (s.pc + 2), fun hsame => by rw [hsame]⟩
  · have hne (nnn : Addr12) : i ≠ .call nnn := fun hi => hcall ⟨nnn, hi⟩
    refine ⟨k, exec_withStAndStack b hst hne hk h, ?_, fun hsame => ?_⟩
    · rw [exec_stack_eq hne h]
      exact hk.mono (exec_sp_le hne h)
    · rw [hsame, exec_stack_eq hne h]

end unread

/-- Settles O53: with the stack as it is, the next states differ in ST only; LD ST writes over the difference. -/
theorem soundTimerIsNeverRead : Obligations.SoundTimerIsNeverRead := by
  intro i s t b h
  by_cases hst : ∃ x, i = .ldStVx x
  · rw [if_pos hst]
    obtain ⟨x, rfl⟩ := hst
    cases h
    rfl
  · rw [if_neg hst]
    have hne (x : Reg) : i ≠ .ldStVx x := fun hi => hst ⟨x, hi⟩
    obtain ⟨k', hexec, -, hstack⟩ := exec_of_unread b hne (fun _ _ => rfl) h
    rw [hstack rfl] at hexec
    exact hexec

/-- Settles O54: with ST as it is, the next states differ in the slots at or above SP only. -/
theorem freeStackSlotsAreNeverRead : Obligations.FreeStackSlotsAreNeverRead := by
  intro i s t k h hk
  by_cases hst : ∃ x, i = .ldStVx x
  · obtain ⟨x, rfl⟩ := hst
    cases h
    exact ⟨k, rfl, hk⟩
  · have hne (x : Reg) : i ≠ .ldStVx x := fun hi => hst ⟨x, hi⟩
    have hsame : t.st = s.st := (exec_st h).resolve_right hst
    obtain ⟨k', hexec, hslots, -⟩ := exec_of_unread s.st hne hk h
    refine ⟨k', hexec.trans (congrArg Host.Outcome.next ?_), hslots⟩
    rw [State.withStAndStack, ← hsame]

end Sys2Proof.Machine
end
